-- ==== Sys2Proof/Word.lean ====
section
/-! DEFINITION. The bit-vector types of CORE (spec/00_scope.md R8, R9): bit 0 is the least significant bit and arithmetic is
modulo the width. -/

namespace Sys2Proof

/-- A 32-bit word: register contents, the instruction pointer, an instruction word, a data address (R8). -/
abbrev Word := BitVec 32

/-- One byte of data memory (spec/20_memory.md R28). -/
abbrev Byte := BitVec 8

/-- A register index: every value 0 to 31 is valid and none is special (spec/30_encoding.md R45). -/
abbrev RegIx := BitVec 5

/-- The 6-bit opcode field, bits 31–26 (R43). -/
abbrev Opcode := BitVec 6

/-- The 6-bit funct field, bits 5–0 (R43). -/
abbrev Funct := BitVec 6

/-- The 16-bit immediate field, bits 15–0 (R43). -/
abbrev Imm16 := BitVec 16

/-- The 26-bit jump field, bits 25–0 (R43). -/
abbrev Addr26 := BitVec 26

/-- Bits 10–6 of a register-format word, decoded into no field of the Instruction record (R43, R44). -/
abbrev Ignored := BitVec 5

/-- Zero extension to a word. CORE extends no other way: "no sign extension is applied" (R9, R45). -/
abbrev zext {n : Nat} (v : BitVec n) : Word := v.setWidth 32

end Sys2Proof
end

