-- ==== Sys2Proof/Syntax.lean ====
section
/-! DEFINITION. The instruction set as syntax: one constructor of `Instr` per row of spec/opcode_table.json, the decoder's Instruction
record (spec/30_encoding.md R44), the control vector (R46, R47) and the two decode aborts (spec/60_exceptions.md R93). -/

namespace Sys2Proof

/-- An instruction of CORE (spec/00_scope.md R3, spec/30_encoding.md R49). A register-format constructor also carries bits 10–6
of its word, which influence nothing (R44), so that a word and its instruction determine each other (notes/assumptions/22.md).
Every value of every field is an operand the encoding admits. -/
inductive Instr where
  /-- `add $rd, $rs, $rt`: add, wrapping (R68). -/
  | add (rs rt rd : RegIx) (ign : Ignored)
  /-- `addu $rd, $rs, $rt`: the same row as `add` (R69). -/
  | addu (rs rt rd : RegIx) (ign : Ignored)
  /-- `sub $rd, $rs, $rt`: subtract, wrapping (R70). -/
  | sub (rs rt rd : RegIx) (ign : Ignored)
  /-- `subu $rd, $rs, $rt`: the same row as `sub` (R71). -/
  | subu (rs rt rd : RegIx) (ign : Ignored)
  /-- `and $rd, $rs, $rt`: bitwise AND (R72). -/
  | and (rs rt rd : RegIx) (ign : Ignored)
  /-- `or $rd, $rs, $rt`: bitwise OR (R73). -/
  | or (rs rt rd : RegIx) (ign : Ignored)
  /-- `xor $rd, $rs, $rt`: bitwise exclusive OR (R74). -/
  | xor (rs rt rd : RegIx) (ign : Ignored)
  /-- `nor $rd, $rs, $rt`: bitwise NOT OR (R75). -/
  | nor (rs rt rd : RegIx) (ign : Ignored)
  /-- `slt $rd, $rs, $rt`: set on less than (R76). -/
  | slt (rs rt rd : RegIx) (ign : Ignored)
  /-- `sltu $rd, $rs, $rt`: the same row as `slt` (90 C4) (R77). -/
  | sltu (rs rt rd : RegIx) (ign : Ignored)
  /-- `j addr26`: jump (R78). -/
  | j (addr : Addr26)
  /-- `beq $rs, $rt, imm16`: taken iff the registers differ (R79, 90 C1). -/
  | beq (rs rt : RegIx) (imm16 : Imm16)
  /-- `bne $rs, $rt, imm16`: taken iff the registers are equal (R80, 90 C1). -/
  | bne (rs rt : RegIx) (imm16 : Imm16)
  /-- `addi $rt, $rs, imm16`: add immediate, wrapping (R81). -/
  | addi (rs rt : RegIx) (imm16 : Imm16)
  /-- `addiu $rt, $rs, imm16`: the same row as `addi` (R82). -/
  | addiu (rs rt : RegIx) (imm16 : Imm16)
  /-- `slti $rt, $rs, imm16`: compares x[rs] with x[rt] and writes x[imm16[15:11]] (R83, 90 C2). -/
  | slti (rs rt : RegIx) (imm16 : Imm16)
  /-- `sltiu $rt, $rs, imm16`: the same row as `slti` (R84, 90 C2 and C4). -/
  | sltiu (rs rt : RegIx) (imm16 : Imm16)
  /-- `andi $rt, $rs, imm16`: AND immediate (R85). -/
  | andi (rs rt : RegIx) (imm16 : Imm16)
  /-- `ori $rt, $rs, imm16`: OR immediate (R86). -/
  | ori (rs rt : RegIx) (imm16 : Imm16)
  /-- `lui $rt, imm16`: ORs the immediate shifted left by 16 into x[rs] (R87). -/
  | lui (rs rt : RegIx) (imm16 : Imm16)
  /-- `lb $rt, imm16($rs)`: load byte (R88). -/
  | lb (rs rt : RegIx) (imm16 : Imm16)
  /-- `lw $rt, imm16($rs)`: load word (R89). -/
  | lw (rs rt : RegIx) (imm16 : Imm16)
  /-- `sb $rt, imm16($rs)`: store byte (R90). -/
  | sb (rs rt : RegIx) (imm16 : Imm16)
  /-- `sw $rt, imm16($rs)`: store word (R91). -/
  | sw (rs rt : RegIx) (imm16 : Imm16)
deriving DecidableEq, Repr

/-- The decoder's Instruction record: every field is extracted from every word, whatever its format (R44). -/
structure Fields where
  opcode : Opcode
  rs : RegIx
  rt : RegIx
  rd : RegIx
  funct : Funct
  imm16 : Imm16
  addr : Addr26
deriving DecidableEq, Repr

/-- The ALU operation codes 0 to 4, in that order (R47). -/
inductive AluOp where
  /-- 0: bitwise AND. -/
  | and
  /-- 1: bitwise OR. -/
  | or
  /-- 2: the ADD/SUB class. -/
  | add
  /-- 3: the SLT class. -/
  | slt
  /-- 4: the XOR and branch-compare class. -/
  | xor
deriving DecidableEq, Repr

/-- The control signal vector, its twelve components in the order of the signal table's columns (R46, R48). -/
structure ControlBits where
  regDst : Bool
  regWrite : Bool
  branch : Bool
  jump : Bool
  memRead : Bool
  memWrite : Bool
  memToReg : Bool
  memByByte : Bool
  immUpper : Bool
  aluOp : AluOp
  aluBnegate : Bool
  notRes : Bool
deriving DecidableEq, Repr

/-- The two fatal decode errors (R93). -/
inductive AbortKind where
  | unsupportedOpcode
  | unsupportedFunct
deriving DecidableEq, Repr

/-- A decode error with the 6-bit code it carries: the opcode or the funct (R93). -/
structure DecodeAbort where
  kind : AbortKind
  code : BitVec 6
deriving DecidableEq, Repr

end Sys2Proof
end

