-- ==== Sys2Proof/Decode.lean ====
section
/-! DEFINITION. The decoder (spec/30_encoding.md R43, R44), the control unit with its signal table (R46 to R51), the reading of a word as
an instruction, and the encoder. Opcode and funct numbers are the MIPS32 ones the spec takes from general knowledge (R49, 92
D12). PRESUMED, unsafe: notes/assumptions/10.md. -/

namespace Sys2Proof

/-! ## The decoder (R44) -/

/-- Bits 10–6 of a word, which the decoder puts into no field (R43). -/
def ignoredBits (w : Word) : Ignored := w.extractLsb' 6 5

/-- `Decode(w)`: total on all 2^32 words, no validation (R44). -/
def decodeFields (w : Word) : Fields :=
  { opcode := w.extractLsb' 26 6
    rs := w.extractLsb' 21 5
    rt := w.extractLsb' 16 5
    rd := w.extractLsb' 11 5
    funct := w.extractLsb' 0 6
    imm16 := w.extractLsb' 0 16
    addr := w.extractLsb' 0 26 }

/-! ## The control unit: the rows of the signal table (R48) -/

/-- The vector with every signal 0 and `alu_op` 0, from which each row below sets its ones. -/
def rowZero : ControlBits := ⟨false, false, false, false, false, false, false, false, false, .and, false, false⟩

/-- Row "R-format: add/addu". -/
def rowAddAddu : ControlBits := { rowZero with regDst := true, regWrite := true, aluOp := .add }

/-- Row "R-format: sub/subu". -/
def rowSubSubu : ControlBits := { rowZero with regDst := true, regWrite := true, aluOp := .add, aluBnegate := true }

/-- Row "R-format: and". -/
def rowAnd : ControlBits := { rowZero with regDst := true, regWrite := true, aluOp := .and }

/-- Row "R-format: or". -/
def rowOr : ControlBits := { rowZero with regDst := true, regWrite := true, aluOp := .or }

/-- Row "R-format: xor". -/
def rowXor : ControlBits := { rowZero with regDst := true, regWrite := true, aluOp := .xor }

/-- Row "R-format: nor". -/
def rowNor : ControlBits := { rowZero with regDst := true, regWrite := true, aluOp := .or, notRes := true }

/-- Row "R-format: slt/sltu". -/
def rowSltSltu : ControlBits := { rowZero with regDst := true, regWrite := true, aluOp := .slt, aluBnegate := true }

/-- Row "jump (j)". -/
def rowJump : ControlBits := { rowZero with jump := true }

/-- Row "beq": `not_res` is 1, read literally (90 C1). -/
def rowBeq : ControlBits := { rowZero with regDst := true, branch := true, aluOp := .xor, notRes := true }

/-- Row "bne": `not_res` is 0, read literally (90 C1). -/
def rowBne : ControlBits := { rowZero with regDst := true, branch := true, aluOp := .xor }

/-- Row "addi/addiu". -/
def rowAddiAddiu : ControlBits := { rowZero with regWrite := true, aluOp := .add }

/-- Row "slti/sltiu": `reg_dst` is 1, read literally (90 C2). -/
def rowSltiSltiu : ControlBits := { rowZero with regDst := true, regWrite := true, aluOp := .slt, aluBnegate := true }

/-- Row "andi". -/
def rowAndi : ControlBits := { rowZero with regWrite := true, aluOp := .and }

/-- Row "ori". -/
def rowOri : ControlBits := { rowZero with regWrite := true, aluOp := .or }

/-- Row "lui (upper-immediate)". -/
def rowLui : ControlBits := { rowZero with regWrite := true, immUpper := true, aluOp := .or }

/-- Row "lb". -/
def rowLb : ControlBits := { rowZero with regWrite := true, memRead := true, memToReg := true, memByByte := true, aluOp := .add }

/-- Row "lw". -/
def rowLw : ControlBits := { rowZero with regWrite := true, memRead := true, memToReg := true, aluOp := .add }

/-- Row "sb". -/
def rowSb : ControlBits := { rowZero with memWrite := true, memByByte := true, aluOp := .add }

/-- Row "sw". -/
def rowSw : ControlBits := { rowZero with memWrite := true, aluOp := .add }

/-- The row of an instruction (R48). -/
def rowOf (i : Instr) : ControlBits :=
  match i with
  | .add _ _ _ _ => rowAddAddu
  | .addu _ _ _ _ => rowAddAddu
  | .sub _ _ _ _ => rowSubSubu
  | .subu _ _ _ _ => rowSubSubu
  | .and _ _ _ _ => rowAnd
  | .or _ _ _ _ => rowOr
  | .xor _ _ _ _ => rowXor
  | .nor _ _ _ _ => rowNor
  | .slt _ _ _ _ => rowSltSltu
  | .sltu _ _ _ _ => rowSltSltu
  | .j _ => rowJump
  | .beq _ _ _ => rowBeq
  | .bne _ _ _ => rowBne
  | .addi _ _ _ => rowAddiAddiu
  | .addiu _ _ _ => rowAddiAddiu
  | .slti _ _ _ => rowSltiSltiu
  | .sltiu _ _ _ => rowSltiSltiu
  | .andi _ _ _ => rowAndi
  | .ori _ _ _ => rowOri
  | .lui _ _ _ => rowLui
  | .lb _ _ _ => rowLb
  | .lw _ _ _ => rowLw
  | .sb _ _ _ => rowSb
  | .sw _ _ _ => rowSw

/-- `derive(opcode, funct)` of R50: the row of a supported code, or the abort. For a non-zero opcode the funct is ignored. -/
def derive (opcode : Opcode) (funct : Funct) : Except DecodeAbort ControlBits :=
  match opcode with
  | 0x00#6 =>
    match funct with
    | 0x20#6 => .ok rowAddAddu
    | 0x21#6 => .ok rowAddAddu
    | 0x22#6 => .ok rowSubSubu
    | 0x23#6 => .ok rowSubSubu
    | 0x24#6 => .ok rowAnd
    | 0x25#6 => .ok rowOr
    | 0x26#6 => .ok rowXor
    | 0x27#6 => .ok rowNor
    | 0x2A#6 => .ok rowSltSltu
    | 0x2B#6 => .ok rowSltSltu
    | f => .error ⟨.unsupportedFunct, f⟩
  | 0x02#6 => .ok rowJump
  | 0x04#6 => .ok rowBeq
  | 0x05#6 => .ok rowBne
  | 0x08#6 => .ok rowAddiAddiu
  | 0x09#6 => .ok rowAddiAddiu
  | 0x0A#6 => .ok rowSltiSltiu
  | 0x0B#6 => .ok rowSltiSltiu
  | 0x0C#6 => .ok rowAndi
  | 0x0D#6 => .ok rowOri
  | 0x0F#6 => .ok rowLui
  | 0x20#6 => .ok rowLb
  | 0x23#6 => .ok rowLw
  | 0x28#6 => .ok rowSb
  | 0x2B#6 => .ok rowSw
  | c => .error ⟨.unsupportedOpcode, c⟩

/-! ## From a word to an instruction (R49, R51) -/

/-- A register-format word, by its funct. -/
def decodeRFormat (F : Fields) (ign : Ignored) : Except DecodeAbort Instr :=
  match F.funct with
  | 0x20#6 => .ok (.add F.rs F.rt F.rd ign)
  | 0x21#6 => .ok (.addu F.rs F.rt F.rd ign)
  | 0x22#6 => .ok (.sub F.rs F.rt F.rd ign)
  | 0x23#6 => .ok (.subu F.rs F.rt F.rd ign)
  | 0x24#6 => .ok (.and F.rs F.rt F.rd ign)
  | 0x25#6 => .ok (.or F.rs F.rt F.rd ign)
  | 0x26#6 => .ok (.xor F.rs F.rt F.rd ign)
  | 0x27#6 => .ok (.nor F.rs F.rt F.rd ign)
  | 0x2A#6 => .ok (.slt F.rs F.rt F.rd ign)
  | 0x2B#6 => .ok (.sltu F.rs F.rt F.rd ign)
  | f => .error ⟨.unsupportedFunct, f⟩

/-- The instruction a record stands for, by its opcode. -/
def decodeRecord (F : Fields) (ign : Ignored) : Except DecodeAbort Instr :=
  match F.opcode with
  | 0x00#6 => decodeRFormat F ign
  | 0x02#6 => .ok (.j F.addr)
  | 0x04#6 => .ok (.beq F.rs F.rt F.imm16)
  | 0x05#6 => .ok (.bne F.rs F.rt F.imm16)
  | 0x08#6 => .ok (.addi F.rs F.rt F.imm16)
  | 0x09#6 => .ok (.addiu F.rs F.rt F.imm16)
  | 0x0A#6 => .ok (.slti F.rs F.rt F.imm16)
  | 0x0B#6 => .ok (.sltiu F.rs F.rt F.imm16)
  | 0x0C#6 => .ok (.andi F.rs F.rt F.imm16)
  | 0x0D#6 => .ok (.ori F.rs F.rt F.imm16)
  | 0x0F#6 => .ok (.lui F.rs F.rt F.imm16)
  | 0x20#6 => .ok (.lb F.rs F.rt F.imm16)
  | 0x23#6 => .ok (.lw F.rs F.rt F.imm16)
  | 0x28#6 => .ok (.sb F.rs F.rt F.imm16)
  | 0x2B#6 => .ok (.sw F.rs F.rt F.imm16)
  | c => .error ⟨.unsupportedOpcode, c⟩

/-- The instruction of a word, or the abort the word raises (R51, R93): total on all 2^32 words. -/
def decode (w : Word) : Except DecodeAbort Instr := decodeRecord (decodeFields w) (ignoredBits w)

/-! ## The encoder (R43, R49) -/

/-- A register-format word. -/
def encodeR (funct : Funct) (rs rt rd : RegIx) (ign : Ignored) : Word := 0x00#6 ++ rs ++ rt ++ rd ++ ign ++ funct

/-- An immediate-format word. -/
def encodeI (opcode : Opcode) (rs rt : RegIx) (imm16 : Imm16) : Word := opcode ++ rs ++ rt ++ imm16

/-- A jump-format word. -/
def encodeJ (opcode : Opcode) (addr : Addr26) : Word := opcode ++ addr

/-- The word of an instruction. -/
def encode (i : Instr) : Word :=
  match i with
  | .add rs rt rd ign => encodeR 0x20#6 rs rt rd ign
  | .addu rs rt rd ign => encodeR 0x21#6 rs rt rd ign
  | .sub rs rt rd ign => encodeR 0x22#6 rs rt rd ign
  | .subu rs rt rd ign => encodeR 0x23#6 rs rt rd ign
  | .and rs rt rd ign => encodeR 0x24#6 rs rt rd ign
  | .or rs rt rd ign => encodeR 0x25#6 rs rt rd ign
  | .xor rs rt rd ign => encodeR 0x26#6 rs rt rd ign
  | .nor rs rt rd ign => encodeR 0x27#6 rs rt rd ign
  | .slt rs rt rd ign => encodeR 0x2A#6 rs rt rd ign
  | .sltu rs rt rd ign => encodeR 0x2B#6 rs rt rd ign
  | .j addr => encodeJ 0x02#6 addr
  | .beq rs rt imm16 => encodeI 0x04#6 rs rt imm16
  | .bne rs rt imm16 => encodeI 0x05#6 rs rt imm16
  | .addi rs rt imm16 => encodeI 0x08#6 rs rt imm16
  | .addiu rs rt imm16 => encodeI 0x09#6 rs rt imm16
  | .slti rs rt imm16 => encodeI 0x0A#6 rs rt imm16
  | .sltiu rs rt imm16 => encodeI 0x0B#6 rs rt imm16
  | .andi rs rt imm16 => encodeI 0x0C#6 rs rt imm16
  | .ori rs rt imm16 => encodeI 0x0D#6 rs rt imm16
  | .lui rs rt imm16 => encodeI 0x0F#6 rs rt imm16
  | .lb rs rt imm16 => encodeI 0x20#6 rs rt imm16
  | .lw rs rt imm16 => encodeI 0x23#6 rs rt imm16
  | .sb rs rt imm16 => encodeI 0x28#6 rs rt imm16
  | .sw rs rt imm16 => encodeI 0x2B#6 rs rt imm16

/-- The word of a table row: its `nbits` bits, every bit above them 0. Instruction memory delivers whole words (spec/20_memory.md
R26), so no byte order enters (notes/assumptions/9.md). -/
def tableWord (nbits w : Nat) : Word := BitVec.ofNat 32 (w % 2 ^ nbits)

/-- What the decoder reads from a table row's bits; none where it aborts. -/
def decodeTableWord (nbits w : Nat) : Option Instr :=
  match decode (tableWord nbits w) with
  | .ok i => some i
  | .error _ => none

end Sys2Proof
end

