-- ==== Sys2Proof/Machine/Flags.lean ====
section
/-! DEFINITION. The one flag of CORE, the ALU's zero output, which lives inside a cycle only (spec/10_state.md R19), and the inversion
of result and flag (spec/40_datapath.md R58, R59). -/

namespace Sys2Proof.Machine

/-- "`zero` is true iff result == 0" (R58). -/
def zeroFlag (result : Word) : Bool := result == 0#32

/-- `not_res`: the complement of the result and the negation of the flag (R59). The inverted flag is in general not the zero flag
of the inverted result. -/
def invert (notRes : Bool) (rz : Word × Bool) : Word × Bool := if notRes then (~~~rz.1, !rz.2) else rz

end Sys2Proof.Machine
end

