-- ==== Sys2Proof/Machine/Alu.lean ====
section
/-! DEFINITION. The arithmetic/logic unit (spec/40_datapath.md R56 to R58), total over every operation and both values of `bnegate`
(R67). -/

namespace Sys2Proof.Machine

/-- `neg(v) = (~v + 1) mod 2^32` (spec/00_scope.md R9). -/
def neg (v : Word) : Word := ~~~v + 1#32

/-- ALU input 2 after `bnegate` (R56). -/
def negateIf (bnegate : Bool) (v : Word) : Word := if bnegate then neg v else v

/-- The operation on the two inputs (R57). Code 3 gives the sign bit of the adder's wrapped sum (92 D3;
notes/assumptions/11.md). No operation traps. -/
def aluOperate (op : AluOp) (a b : Word) : Word :=
  match op with
  | .and => a &&& b
  | .or => a ||| b
  | .add => a + b
  | .slt => zext ((a + b).extractLsb' 31 1)
  | .xor => a ^^^ b

/-- `execute(op, in1, in2, bnegate) -> (result, zero)`. -/
def aluExecute (op : AluOp) (in1 in2 : Word) (bnegate : Bool) : Word × Bool :=
  let r := aluOperate op in1 (negateIf bnegate in2)
  (r, zeroFlag r)

end Sys2Proof.Machine
end

