-- ==== Sys2Proof/Machine/Memory.lean ====
section
/-! DEFINITION. Data memory as plain data (spec/20_memory.md R28): a list of (address, byte) pairs in ONE canonical form, addresses
strictly rising and no entry equal to the byte an unlisted address reads as. -/

namespace Sys2Proof.Machine

/-- Data memory: the bytes that differ from `unlistedByte`, by rising address. -/
abbrev Memory := List Host.Cell

/-- What an unlisted address reads as. DESIGN CHOICE, unsafe for a claim about a run from `State.reset`: the spec leaves the
initial bytes to the launch (R28, 92 D11; notes/assumptions/4.md). -/
def unlistedByte : Byte := 0#8

/-- The byte at an address. -/
def Memory.get (m : Memory) (a : Nat) : Byte :=
  match m with
  | [] => unlistedByte
  | (k, b) :: rest => if k = a then b else Memory.get rest a

/-- A cell for address `a`, or none when the value is what an unlisted address reads as. -/
def Memory.cell (a : Nat) (v : Byte) (rest : Memory) : Memory :=
  if v = unlistedByte then rest else (a, v) :: rest

/-- The memory with one byte replaced; keeps the canonical form. -/
def Memory.set (m : Memory) (a : Nat) (v : Byte) : Memory :=
  match m with
  | [] => Memory.cell a v []
  | (k, b) :: rest =>
    if a < k then Memory.cell a v ((k, b) :: rest)
    else if a = k then Memory.cell a v rest
    else (k, b) :: Memory.set rest a v

/-- Every listed address lies at or above `n`. -/
def Memory.above (n : Nat) (m : Memory) : Bool := m.all fun c => decide (n ≤ c.1)

/-- Every listed address lies below `n`: with `n = DMEM_SIZE`, nothing is listed outside data memory (R28). -/
def Memory.below (n : Nat) (m : Memory) : Bool := m.all fun c => decide (c.1 < n)

/-- The canonical form. -/
def Memory.wf (m : Memory) : Bool :=
  match m with
  | [] => true
  | (k, b) :: rest => decide (b ≠ unlistedByte) && Memory.above (k + 1) rest && Memory.wf rest

end Sys2Proof.Machine
end

