-- ==== Sys2Proof/Config.lean ====
section
/-! DEFINITION. What is fixed before a run: the launch parameters of spec/00_scope.md R8 and the bounds the spec puts on them. No
opaque constant stands here: the rules state a value for every operand of every instruction, and what the spec leaves to the
launch is data (notes/assumptions/2.md). -/

namespace Sys2Proof

/-- `ENDIAN`, the byte order of data-memory words: the OPEN parameter of spec/20_memory.md R30 and R31 (92 D2). -/
inductive Endian where
  | little
  | big
deriving DecidableEq, Repr

/-- The greatest allowed `IMEM_SIZE` in bytes (R26, 92 D9). -/
abbrev imemSizeMax : Nat := 0xFFFFFFFC

/-- The greatest allowed `DMEM_SIZE` in bytes, 2^32 (R28, 92 D6). -/
abbrev dmemSizeMax : Nat := 0x100000000

/-- The address the first instruction is fetched from (spec/10_state.md R24, spec/70_reset_and_hazards.md R107). -/
abbrev entryPoint : Word := 0

/-- The launch parameters (R8, R109). `IMEM_SIZE` is four times the number of words of `imem` ("sized in whole 32-bit
words"), so it is not stored a second time. `dmem0` lists the data bytes that differ from the byte an unlisted address reads
as, in the canonical form of Machine/Memory.lean: any initial content of data memory has exactly one such list. -/
structure Launch where
  /-- `IMEM`, the instruction words (R26). -/
  imem : List Word
  /-- `DMEM_SIZE` in bytes (R28). -/
  dmemSize : Nat
  /-- `DMEM0`, the initial data bytes (R28, 92 D11). -/
  dmem0 : List Host.Cell
  /-- `REGS0`, the initial register values (R24, 92 D10). -/
  regs0 : Vector Word 32
  /-- `ENDIAN` (R30). -/
  endian : Endian
  /-- `DEBUG`, the debug flag (spec/40_datapath.md R65). -/
  debug : Bool
deriving DecidableEq, Repr

/-- `IMEM_SIZE` of a launch, in bytes (R26). -/
abbrev Launch.imemSize (l : Launch) : Nat := 4 * l.imem.length

end Sys2Proof
end

