-- ==== Sys2Proof/Machine/State.lean ====
section
/-! DEFINITION. The state of CORE as plain data (spec/10_state.md R12 to R24), the machine's one fault, its refusals, and the state at the
call of the entry point. -/

namespace Sys2Proof.Machine

/-- The three spec-defined faults of a collaborator call (spec/60_exceptions.md R94). -/
inductive FaultKind where
  | fetchMisaligned
  | dataMisaligned
  | dataOutOfRange
deriving DecidableEq, Repr

/-- A data access that failed: the fault and the address it records (R94). -/
structure DataFault where
  kind : FaultKind
  addr : Word
deriving DecidableEq, Repr

/-- The run status (spec/10_state.md R23, 92 D14). -/
inductive RunStatus where
  | running
  /-- The normal end, at `ip >= IMEM_SIZE` (spec/40_datapath.md R64). -/
  | halted
  /-- A fatal decode error with its 6-bit code (R93). -/
  | aborted (kind : AbortKind) (code : BitVec 6)
  /-- A spec-defined fault with the address it records (R94). -/
  | faulted (kind : FaultKind) (addr : Word)
deriving DecidableEq, Repr

/-- One event of the debug trace: the instruction pointer and the word fetched there (spec/40_datapath.md R65). -/
structure TraceEvent where
  ip : Word
  word : Word
deriving DecidableEq, Repr

/-- The state of CORE. `ip`, `regs` and `dmem` are what persists (R12); `status` is the spec's bookkeeping (R23); `trace` is the
observable output (R65); the other fields are launch parameters, which no step changes (R64, R110). -/
structure State where
  /-- The instruction pointer, a byte address in instruction memory (R17). -/
  ip : Word
  /-- x[0] … x[31]; x[0] is an ordinary register (R13, R14). -/
  regs : Vector Word 32
  /-- The data bytes D[0 .. DMEM_SIZE-1], canonical (spec/20_memory.md R28; Machine/Memory.lean). -/
  dmem : List Host.Cell
  /-- The run status (R23). -/
  status : RunStatus
  /-- `IMEM`: word k stands at byte address 4k (R26). -/
  imem : List Word
  /-- `DMEM_SIZE` in bytes (R28). -/
  dmemSize : Nat
  /-- `ENDIAN` (R30, R31). -/
  endian : Endian
  /-- `DEBUG` (R65). -/
  debug : Bool
  /-- The trace events emitted so far, oldest first (R65). -/
  trace : List TraceEvent
deriving DecidableEq, Repr

/-- The machine stops with a fault only where the spec defines no step. -/
inductive Fault where
  /-- Raised by `step` from a state whose run has ended: "no step is defined from it" (spec/60_exceptions.md R99; 93 U17, stuck).
  Safe: nothing can be claimed of a later state. -/
  | runEnded (status : RunStatus)
deriving DecidableEq, Repr

/-- The reasons to refuse. -/
inductive Refusal where
  /-- Raised by `exec` for an instruction without a meaning; no arm of this model does. Safe. -/
  | notModelled (mnemonic : String)
  /-- Raised by `launch` for sizes or contents the spec does not allow: "a launch with any other size is refused" (92 D9). Safe. -/
  | launchRefused
deriving DecidableEq, Repr

/-- What the front of a cycle gives: no step is defined; the cycle ends before any instruction runs, in the given state; or an
instruction is to run from the given state (R63). -/
inductive Fetched where
  | stuck (status : RunStatus)
  | stop (s : State)
  | run (i : Instr) (s : State)
deriving DecidableEq, Repr

/-- The state at the call of the entry point (R24, R107). -/
def State.ofLaunch (l : Launch) : State :=
  { ip := entryPoint
    regs := l.regs0
    dmem := l.dmem0
    status := .running
    imem := l.imem
    dmemSize := l.dmemSize
    endian := l.endian
    debug := l.debug
    trace := [] }

/-- The launch parameters of `State.reset`. The spec states none of these values: no program, the whole 32-bit data space, every
register and byte 0, little-endian, no trace. DESIGN CHOICE, unsafe: notes/assumptions/3.md to 8.md. -/
def bareLaunch : Launch :=
  { imem := []
    dmemSize := dmemSizeMax
    dmem0 := []
    regs0 := Vector.replicate 32 0#32
    endian := .little
    debug := false }

/-- The machine right after reset: the call of the entry point with the bare launch (R107). -/
def State.reset : State := State.ofLaunch bareLaunch

end Sys2Proof.Machine
end

