-- ==== Sys2Proof/Machine/Ops.lean ====
section
/-! DEFINITION. The named operations over registers, instruction pointer, memories, trace and run status, which every stage and meaning
is written with. -/

namespace Sys2Proof.Machine

/-! ## Register file (spec/10_state.md R13, R14) -/

/-- `x[r]`: the `load` call; no side effect. -/
def State.reg (s : State) (r : RegIx) : Word := s.regs[r.toNat]'r.isLt

/-- `x[r] <- v`: the `store` call; replaces the whole register, register 0 included (R14). -/
def State.setReg (s : State) (r : RegIx) (v : Word) : State := { s with regs := s.regs.set r.toNat v r.isLt }

/-! ## Instruction pointer and instruction memory (R17; spec/20_memory.md R25, R26) -/

/-- `ip <- a`. -/
def State.setIp (s : State) (a : Word) : State := { s with ip := a }

/-- `IMEM_SIZE`, the collaborator's `size()` in bytes. -/
def State.imemSize (s : State) : Nat := 4 * s.imem.length

/-- `IFetch(a) = IMEM[a / 4]`. The cycle calls it only where R26 defines it: `a` a multiple of 4 and below `IMEM_SIZE`. -/
def State.iFetch (s : State) (a : Word) : Word := s.imem.getD (a.toNat / 4) 0#32

/-! ## Data memory (R29, R30) -/

/-- D[a], for a byte address below `DMEM_SIZE`. -/
def State.byteAt (s : State) (a : Nat) : Byte := Memory.get s.dmem a

/-- `D[a] <- v`. -/
def State.setByteAt (s : State) (a : Nat) (v : Byte) : State := { s with dmem := Memory.set s.dmem a v }

/-- The four bytes of a word in address order (R30). -/
def wordToBytes (e : Endian) (v : Word) : Byte × Byte × Byte × Byte :=
  match e with
  | .little => (v.extractLsb' 0 8, v.extractLsb' 8 8, v.extractLsb' 16 8, v.extractLsb' 24 8)
  | .big => (v.extractLsb' 24 8, v.extractLsb' 16 8, v.extractLsb' 8 8, v.extractLsb' 0 8)

/-- The word of four bytes in address order (R30). -/
def bytesToWord (e : Endian) (b0 b1 b2 b3 : Byte) : Word :=
  match e with
  | .little => b3 ++ b2 ++ b1 ++ b0
  | .big => b0 ++ b1 ++ b2 ++ b3

/-- The check of a byte access: range only (R29). -/
def byteFault (s : State) (a : Word) : Option DataFault :=
  if s.dmemSize ≤ a.toNat then some ⟨.dataOutOfRange, a⟩ else none

/-- The checks of a word access, in R30's order: alignment, then range, `a + 3` computed without wrap. -/
def wordFault (s : State) (a : Word) : Option DataFault :=
  if a.toNat % 4 ≠ 0 then some ⟨.dataMisaligned, a⟩
  else if s.dmemSize ≤ a.toNat + 3 then some ⟨.dataOutOfRange, a⟩
  else none

/-- `MemRead(a, 1)` (R29). -/
def readByte (s : State) (a : Word) : Except DataFault Byte :=
  match byteFault s a with
  | some f => .error f
  | none => .ok (s.byteAt a.toNat)

/-- `MemRead(a, 4)` (R30). -/
def readWord (s : State) (a : Word) : Except DataFault Word :=
  match wordFault s a with
  | some f => .error f
  | none =>
    .ok (bytesToWord s.endian (s.byteAt a.toNat) (s.byteAt (a.toNat + 1)) (s.byteAt (a.toNat + 2)) (s.byteAt (a.toNat + 3)))

/-- `MemWrite(a, 1, v)` (R29). -/
def writeByte (s : State) (a : Word) (v : Byte) : Except DataFault State :=
  match byteFault s a with
  | some f => .error f
  | none => .ok (s.setByteAt a.toNat v)

/-- The four bytes of a word stored from address `a` on (R30). -/
def State.setWordAt (s : State) (a : Nat) (v : Word) : State :=
  let b := wordToBytes s.endian v
  (((s.setByteAt a b.1).setByteAt (a + 1) b.2.1).setByteAt (a + 2) b.2.2.1).setByteAt (a + 3) b.2.2.2

/-- `MemWrite(a, 4, v)` (R30). -/
def writeWord (s : State) (a : Word) (v : Word) : Except DataFault State :=
  match wordFault s a with
  | some f => .error f
  | none => .ok (s.setWordAt a.toNat v)

/-! ## Trace (spec/40_datapath.md R65) -/

/-- `if DEBUG: emit Trace(ip, w)`. -/
def State.emitTrace (s : State) (w : Word) : State :=
  if s.debug then { s with trace := s.trace ++ [⟨s.ip, w⟩] } else s

/-! ## The end of a run (spec/60_exceptions.md R92, R98) -/

/-- `raise`, and the normal halt: the ONE operation that ends a run. It saves nothing and changes nothing but `status`, which
records the kind and value (R98; spec/40_datapath.md R63, R64). CORE has no vector, handler or saved state, and no return from
an error (R92, R99). -/
def State.endRun (s : State) (st : RunStatus) : State := { s with status := st }

end Sys2Proof.Machine
end

