-- ==== Sys2Proof/Machine/Operands.lean ====
section
/-! DEFINITION. The operand forms: the Instruction record of each format (spec/30_encoding.md R43, R44), the two ALU inputs
(spec/40_datapath.md R55), the store operand (R60) and the destination register (R61). -/

namespace Sys2Proof.Machine

/-- The record of a register-format word: the overlapping fields hold the same bits (R44). -/
def rFields (funct : Funct) (rs rt rd : RegIx) (ign : Ignored) : Fields :=
  { opcode := 0x00#6, rs := rs, rt := rt, rd := rd, funct := funct
    imm16 := rd ++ ign ++ funct, addr := rs ++ rt ++ rd ++ ign ++ funct }

/-- The record of an immediate-format word: `rd` is `imm16[15:11]` (R44, 90 C2). -/
def iFields (opcode : Opcode) (rs rt : RegIx) (imm16 : Imm16) : Fields :=
  { opcode := opcode, rs := rs, rt := rt, rd := imm16.extractLsb' 11 5, funct := imm16.extractLsb' 0 6
    imm16 := imm16, addr := rs ++ rt ++ imm16 }

/-- The record of a jump-format word: `rs`, `rt`, `rd`, `funct` and `imm16` are parts of `addr` (R44). -/
def jFields (opcode : Opcode) (addr : Addr26) : Fields :=
  { opcode := opcode, rs := addr.extractLsb' 21 5, rt := addr.extractLsb' 16 5, rd := addr.extractLsb' 11 5
    funct := addr.extractLsb' 0 6, imm16 := addr.extractLsb' 0 16, addr := addr }

/-- The record the decoder extracts from an instruction's word (R44). -/
def recordOf (i : Instr) : Fields :=
  match i with
  | .add rs rt rd ign => rFields 0x20#6 rs rt rd ign
  | .addu rs rt rd ign => rFields 0x21#6 rs rt rd ign
  | .sub rs rt rd ign => rFields 0x22#6 rs rt rd ign
  | .subu rs rt rd ign => rFields 0x23#6 rs rt rd ign
  | .and rs rt rd ign => rFields 0x24#6 rs rt rd ign
  | .or rs rt rd ign => rFields 0x25#6 rs rt rd ign
  | .xor rs rt rd ign => rFields 0x26#6 rs rt rd ign
  | .nor rs rt rd ign => rFields 0x27#6 rs rt rd ign
  | .slt rs rt rd ign => rFields 0x2A#6 rs rt rd ign
  | .sltu rs rt rd ign => rFields 0x2B#6 rs rt rd ign
  | .j addr => jFields 0x02#6 addr
  | .beq rs rt imm16 => iFields 0x04#6 rs rt imm16
  | .bne rs rt imm16 => iFields 0x05#6 rs rt imm16
  | .addi rs rt imm16 => iFields 0x08#6 rs rt imm16
  | .addiu rs rt imm16 => iFields 0x09#6 rs rt imm16
  | .slti rs rt imm16 => iFields 0x0A#6 rs rt imm16
  | .sltiu rs rt imm16 => iFields 0x0B#6 rs rt imm16
  | .andi rs rt imm16 => iFields 0x0C#6 rs rt imm16
  | .ori rs rt imm16 => iFields 0x0D#6 rs rt imm16
  | .lui rs rt imm16 => iFields 0x0F#6 rs rt imm16
  | .lb rs rt imm16 => iFields 0x20#6 rs rt imm16
  | .lw rs rt imm16 => iFields 0x23#6 rs rt imm16
  | .sb rs rt imm16 => iFields 0x28#6 rs rt imm16
  | .sw rs rt imm16 => iFields 0x2B#6 rs rt imm16

/-- The immediate operand: zero-extended, shifted left by 16 when `imm_upper` is set (R45, R55). -/
def immediate (C : ControlBits) (F : Fields) : Word := if C.immUpper then zext F.imm16 <<< 16 else zext F.imm16

/-- ALU input 1: always `x[rs]` (R55). -/
def aluIn1 (F : Fields) (s : State) : Word := s.reg F.rs

/-- ALU input 2: `x[rt]` when `reg_dst` is set, else the immediate (R55). -/
def aluIn2 (C : ControlBits) (F : Fields) (s : State) : Word := if C.regDst then s.reg F.rt else immediate C F

/-- The value a store writes: `x[rt]` (R60). -/
def storeOperand (F : Fields) (s : State) : Word := s.reg F.rt

/-- The byte of it that a byte store writes: bits 7–0 (R60, 92 D5). -/
def storedByte (F : Fields) (s : State) : Byte := (storeOperand F s).extractLsb' 0 8

/-- The destination register: `rd` when `reg_dst` is set, else `rt` (R61). -/
def destination (C : ControlBits) (F : Fields) : RegIx := if C.regDst then F.rd else F.rt

end Sys2Proof.Machine
end

