-- ==== Sys2Proof/Machine/Stages.lean ====
section
/-! DEFINITION. The stages every instruction passes through (spec/40_datapath.md R55 to R62), each total over every ControlBits value
(R67), and the datapath that composes them in the order of R63. -/

namespace Sys2Proof.Machine

/-- Operand selection, `execute` and the inversion: the result and the flag the later stages use (R55 to R59). -/
def aluStage (C : ControlBits) (F : Fields) (s : State) : Word × Bool :=
  invert C.notRes (aluExecute C.aluOp (aluIn1 F s) (aluIn2 C F s) C.aluBnegate)

/-- The write half of the memory access stage, at address `a` (R60). -/
def memWriteStage (C : ControlBits) (F : Fields) (a : Word) (s : State) : Except DataFault State :=
  if C.memWrite then
    if C.memByByte then writeByte s a (storedByte F s) else writeWord s a (storeOperand F s)
  else .ok s

/-- The read half: the value read, a byte zero-extended, or no value (R60, 92 D4; notes/assumptions/12.md). -/
def memReadStage (C : ControlBits) (a : Word) (s : State) : Except DataFault (Option Word) :=
  if C.memRead then
    if C.memByByte then (readByte s a).map fun b => some (zext b) else (readWord s a).map some
  else .ok none

/-- The memory access stage at the address the ALU gave: no row sets both halves (R60). -/
def memStage (C : ControlBits) (F : Fields) (a : Word) (s : State) : Except DataFault (State × Option Word) :=
  match memWriteStage C F a s with
  | .error f => .error f
  | .ok s1 =>
    match memReadStage C a s1 with
    | .error f => .error f
    | .ok m => .ok (s1, m)

/-- The write-back stage, with ALU result `r` and memory value `m` (R61). Every row with `mem_to_reg` also has `mem_read`, so a
selected `m` is a value; where a vector of no row selects an absent one, nothing is written (DESIGN CHOICE, safe:
notes/assumptions/23.md). -/
def writeBack (C : ControlBits) (F : Fields) (r : Word) (m : Option Word) (s : State) : State :=
  if C.regWrite then
    match if C.memToReg then m else some r with
    | some v => s.setReg (destination C F) v
    | none => s
  else s

/-- The branch mask of R62, taken as given (93 U14; notes/assumptions/24.md). -/
def branchKeepMask : Word := 0xFFFF0000#32

/-- The jump mask of R62, taken as given (93 U14; notes/assumptions/24.md). -/
def jumpKeepMask : Word := 0xFF000000#32

/-- The target of a taken branch: the low half replaced by `imm16`, not scaled, not relative (R62, 90 C6). -/
def branchTarget (ip : Word) (imm16 : Imm16) : Word := (ip &&& branchKeepMask) ||| zext imm16

/-- The target of a jump: `addr` ORed in, not shifted (R62, 90 C5). -/
def jumpTarget (ip : Word) (addr : Addr26) : Word := (ip &&& jumpKeepMask) ||| zext addr

/-- The next instruction pointer, by the priority branch > jump > sequential; `z` is the possibly inverted flag (R62). -/
def nextIp (C : ControlBits) (F : Fields) (z : Bool) (ip : Word) : Word :=
  if C.branch && z then branchTarget ip F.imm16
  else if C.jump then jumpTarget ip F.addr
  else ip + 4#32

/-- The program-counter update, evaluated after write-back (R62). -/
def pcUpdate (C : ControlBits) (F : Fields) (z : Bool) (s : State) : State := s.setIp (nextIp C F z s.ip)

/-- One instruction: ALU, memory access, write-back, program-counter update (R63). A data fault ends the step before
write-back and program-counter update and changes only `status` (R60, R63). -/
def datapath (C : ControlBits) (F : Fields) (s : State) : Host.Outcome State Fault Refusal :=
  match memStage C F (aluStage C F s).1 s with
  | .error f => .next (s.endRun (.faulted f.kind f.addr))
  | .ok (s1, m) => .next (pcUpdate C F (aluStage C F s).2 (writeBack C F (aluStage C F s).1 m s1))

end Sys2Proof.Machine
end

