-- ==== Sys2Proof/Machine/Immediate.lean ====
section
/-! DEFINITION. The immediate-format ALU instructions (spec/43_immediate.md R81 to R87). None reads or writes memory, none raises an
exception, all advance `ip` by 4. -/

namespace Sys2Proof.Machine

/-- `addi`: `x[rt] <- x[rs] + zext(imm16)`, wrapping, no trap (R81). -/
def execAddi (rs rt : RegIx) (imm16 : Imm16) (s : State) : Host.Outcome State Fault Refusal :=
  datapath rowAddiAddiu (iFields 0x08#6 rs rt imm16) s

/-- `addiu`: as `addi`: one row for both (R82). -/
def execAddiu (rs rt : RegIx) (imm16 : Imm16) (s : State) : Host.Outcome State Fault Refusal :=
  datapath rowAddiAddiu (iFields 0x09#6 rs rt imm16) s

/-- `slti`: `x[imm16[15:11]] <- (x[rs] - x[rt])[31]` (R83, 90 C2). -/
def execSlti (rs rt : RegIx) (imm16 : Imm16) (s : State) : Host.Outcome State Fault Refusal :=
  datapath rowSltiSltiu (iFields 0x0A#6 rs rt imm16) s

/-- `sltiu`: as `slti`: one row for both (R84, 90 C2 and C4). -/
def execSltiu (rs rt : RegIx) (imm16 : Imm16) (s : State) : Host.Outcome State Fault Refusal :=
  datapath rowSltiSltiu (iFields 0x0B#6 rs rt imm16) s

/-- `andi`: `x[rt] <- x[rs] & zext(imm16)` (R85). -/
def execAndi (rs rt : RegIx) (imm16 : Imm16) (s : State) : Host.Outcome State Fault Refusal :=
  datapath rowAndi (iFields 0x0C#6 rs rt imm16) s

/-- `ori`: `x[rt] <- x[rs] | zext(imm16)` (R86). -/
def execOri (rs rt : RegIx) (imm16 : Imm16) (s : State) : Host.Outcome State Fault Refusal :=
  datapath rowOri (iFields 0x0D#6 rs rt imm16) s

/-- `lui`: `x[rt] <- x[rs] | (zext(imm16) << 16)` (R87). -/
def execLui (rs rt : RegIx) (imm16 : Imm16) (s : State) : Host.Outcome State Fault Refusal :=
  datapath rowLui (iFields 0x0F#6 rs rt imm16) s

end Sys2Proof.Machine
end

