-- ==== Sys2Proof/Machine/JumpBranch.lean ====
section
/-! DEFINITION. The jump and the branches (spec/42_jump_branch.md R78 to R80). No register and no byte changes. The branch polarity is the
signal table's, the reverse of the MIPS mnemonics (90 C1; notes/assumptions/24.md). -/

namespace Sys2Proof.Machine

/-- `j`: `ip <- (ip & 0xFF000000) | addr` (R78). -/
def execJ (addr : Addr26) (s : State) : Host.Outcome State Fault Refusal :=
  datapath rowJump (jFields 0x02#6 addr) s

/-- `beq`: taken exactly when `x[rs] != x[rt]` (R79). -/
def execBeq (rs rt : RegIx) (imm16 : Imm16) (s : State) : Host.Outcome State Fault Refusal :=
  datapath rowBeq (iFields 0x04#6 rs rt imm16) s

/-- `bne`: taken exactly when `x[rs] == x[rt]` (R80). -/
def execBne (rs rt : RegIx) (imm16 : Imm16) (s : State) : Host.Outcome State Fault Refusal :=
  datapath rowBne (iFields 0x05#6 rs rt imm16) s

end Sys2Proof.Machine
end

