-- ==== Sys2Proof/Machine/LoadStore.lean ====
section
/-! DEFINITION. The loads and stores (spec/44_load_store.md R88 to R91), at `ea = x[rs] + zext(imm16)` mod 2^32. A faulting access ends the
run with nothing changed but `status`. -/

namespace Sys2Proof.Machine

/-- `lb`: `x[rt] <- zext(MemRead(ea, 1))` (R88, 92 D4). -/
def execLb (rs rt : RegIx) (imm16 : Imm16) (s : State) : Host.Outcome State Fault Refusal :=
  datapath rowLb (iFields 0x20#6 rs rt imm16) s

/-- `lw`: `x[rt] <- MemRead(ea, 4)` (R89). -/
def execLw (rs rt : RegIx) (imm16 : Imm16) (s : State) : Host.Outcome State Fault Refusal :=
  datapath rowLw (iFields 0x23#6 rs rt imm16) s

/-- `sb`: `MemWrite(ea, 1, x[rt][7:0])` (R90, 92 D5). -/
def execSb (rs rt : RegIx) (imm16 : Imm16) (s : State) : Host.Outcome State Fault Refusal :=
  datapath rowSb (iFields 0x28#6 rs rt imm16) s

/-- `sw`: `MemWrite(ea, 4, x[rt])` (R91). -/
def execSw (rs rt : RegIx) (imm16 : Imm16) (s : State) : Host.Outcome State Fault Refusal :=
  datapath rowSw (iFields 0x2B#6 rs rt imm16) s

end Sys2Proof.Machine
end

