-- ==== Sys2Proof/Machine/RFormat.lean ====
section
/-! DEFINITION. The register-format ALU instructions (spec/41_r_format.md R68 to R77): the datapath with each one's row of the signal table.
None reads or writes memory, none raises an exception, all advance `ip` by 4. -/

namespace Sys2Proof.Machine

/-- `add`: `x[rd] <- x[rs] + x[rt]`, wrapping, no trap (R68). -/
def execAdd (rs rt rd : RegIx) (ign : Ignored) (s : State) : Host.Outcome State Fault Refusal :=
  datapath rowAddAddu (rFields 0x20#6 rs rt rd ign) s

/-- `addu`: as `add`: one row for both (R69). -/
def execAddu (rs rt rd : RegIx) (ign : Ignored) (s : State) : Host.Outcome State Fault Refusal :=
  datapath rowAddAddu (rFields 0x21#6 rs rt rd ign) s

/-- `sub`: `x[rd] <- x[rs] - x[rt]`, wrapping, no trap (R70). -/
def execSub (rs rt rd : RegIx) (ign : Ignored) (s : State) : Host.Outcome State Fault Refusal :=
  datapath rowSubSubu (rFields 0x22#6 rs rt rd ign) s

/-- `subu`: as `sub`: one row for both (R71). -/
def execSubu (rs rt rd : RegIx) (ign : Ignored) (s : State) : Host.Outcome State Fault Refusal :=
  datapath rowSubSubu (rFields 0x23#6 rs rt rd ign) s

/-- `and`: `x[rd] <- x[rs] & x[rt]` (R72). -/
def execAnd (rs rt rd : RegIx) (ign : Ignored) (s : State) : Host.Outcome State Fault Refusal :=
  datapath rowAnd (rFields 0x24#6 rs rt rd ign) s

/-- `or`: `x[rd] <- x[rs] | x[rt]` (R73). -/
def execOr (rs rt rd : RegIx) (ign : Ignored) (s : State) : Host.Outcome State Fault Refusal :=
  datapath rowOr (rFields 0x25#6 rs rt rd ign) s

/-- `xor`: `x[rd] <- x[rs] ^ x[rt]` (R74). -/
def execXor (rs rt rd : RegIx) (ign : Ignored) (s : State) : Host.Outcome State Fault Refusal :=
  datapath rowXor (rFields 0x26#6 rs rt rd ign) s

/-- `nor`: `x[rd] <- ~(x[rs] | x[rt])` (R75). -/
def execNor (rs rt rd : RegIx) (ign : Ignored) (s : State) : Host.Outcome State Fault Refusal :=
  datapath rowNor (rFields 0x27#6 rs rt rd ign) s

/-- `slt`: `x[rd] <- (x[rs] - x[rt])[31]` (R76). -/
def execSlt (rs rt rd : RegIx) (ign : Ignored) (s : State) : Host.Outcome State Fault Refusal :=
  datapath rowSltSltu (rFields 0x2A#6 rs rt rd ign) s

/-- `sltu`: as `slt`, the signed comparison: one row for both (90 C4) (R77). -/
def execSltu (rs rt rd : RegIx) (ign : Ignored) (s : State) : Host.Outcome State Fault Refusal :=
  datapath rowSltSltu (rFields 0x2B#6 rs rt rd ign) s

end Sys2Proof.Machine
end

