-- ==== Sys2Proof/Machine/Dispatch.lean ====
section
/-! DEFINITION. The dispatch: one arm per constructor of `Instr`, each one direct call of that instruction's meaning. -/

namespace Sys2Proof.Machine

def exec (i : Instr) (s : State) : Host.Outcome State Fault Refusal :=
  match i with
  | .add rs rt rd ign => Sys2Proof.Machine.execAdd rs rt rd ign s
  | .addu rs rt rd ign => Sys2Proof.Machine.execAddu rs rt rd ign s
  | .sub rs rt rd ign => Sys2Proof.Machine.execSub rs rt rd ign s
  | .subu rs rt rd ign => Sys2Proof.Machine.execSubu rs rt rd ign s
  | .and rs rt rd ign => Sys2Proof.Machine.execAnd rs rt rd ign s
  | .or rs rt rd ign => Sys2Proof.Machine.execOr rs rt rd ign s
  | .xor rs rt rd ign => Sys2Proof.Machine.execXor rs rt rd ign s
  | .nor rs rt rd ign => Sys2Proof.Machine.execNor rs rt rd ign s
  | .slt rs rt rd ign => Sys2Proof.Machine.execSlt rs rt rd ign s
  | .sltu rs rt rd ign => Sys2Proof.Machine.execSltu rs rt rd ign s
  | .j addr => Sys2Proof.Machine.execJ addr s
  | .beq rs rt imm16 => Sys2Proof.Machine.execBeq rs rt imm16 s
  | .bne rs rt imm16 => Sys2Proof.Machine.execBne rs rt imm16 s
  | .addi rs rt imm16 => Sys2Proof.Machine.execAddi rs rt imm16 s
  | .addiu rs rt imm16 => Sys2Proof.Machine.execAddiu rs rt imm16 s
  | .slti rs rt imm16 => Sys2Proof.Machine.execSlti rs rt imm16 s
  | .sltiu rs rt imm16 => Sys2Proof.Machine.execSltiu rs rt imm16 s
  | .andi rs rt imm16 => Sys2Proof.Machine.execAndi rs rt imm16 s
  | .ori rs rt imm16 => Sys2Proof.Machine.execOri rs rt imm16 s
  | .lui rs rt imm16 => Sys2Proof.Machine.execLui rs rt imm16 s
  | .lb rs rt imm16 => Sys2Proof.Machine.execLb rs rt imm16 s
  | .lw rs rt imm16 => Sys2Proof.Machine.execLw rs rt imm16 s
  | .sb rs rt imm16 => Sys2Proof.Machine.execSb rs rt imm16 s
  | .sw rs rt imm16 => Sys2Proof.Machine.execSw rs rt imm16 s

end Sys2Proof.Machine
end

