-- ==== Sys2Proof/Machine/Fetch.lean ====
section
/-! DEFINITION. The front of a cycle: the run-status check, the halt check, the fetch, the trace event and the decode, in the order of
spec/40_datapath.md R63 and spec/60_exceptions.md R96. -/

namespace Sys2Proof.Machine

/-- The front of a cycle. An abort leaves everything but `status` and the trace event already emitted (R63, R65, R98). -/
def fetchDecode (s : State) : Fetched :=
  if s.status ≠ .running then .stuck s.status
  else if s.imemSize ≤ s.ip.toNat then .stop (s.endRun .halted)
  else if s.ip.toNat % 4 ≠ 0 then .stop (s.endRun (.faulted .fetchMisaligned s.ip))
  else
    match decode (s.iFetch s.ip) with
    | .error e => .stop ((s.emitTrace (s.iFetch s.ip)).endRun (.aborted e.kind e.code))
    | .ok i => .run i (s.emitTrace (s.iFetch s.ip))

/-! ## Placing a word where the next fetch reads it -/

/-- The list with element `n` replaced, lengthened by zero words where it is too short. -/
def placeWord (ws : List Word) (n : Nat) (w : Word) : List Word :=
  match ws, n with
  | [], 0 => [w]
  | [], n + 1 => 0#32 :: placeWord [] n w
  | _ :: rest, 0 => w :: rest
  | v :: rest, n + 1 => v :: placeWord rest n w

/-- The address the placed word is fetched from: `ip` where an instruction can execute (a multiple of 4, at most 0xFFFFFFF8,
spec/10_state.md R18), else the entry point. -/
def fetchableIp (ip : Word) : Word := if ip.toNat % 4 = 0 ∧ ip.toNat + 4 ≤ imemSizeMax then ip else entryPoint

/-- A load from outside the machine: the word placed where the next step fetches, the run made to run
(notes/assumptions/8.md and 9.md). -/
def placeFetchWord (s : State) (w : Word) : State :=
  { s with
    status := .running
    ip := fetchableIp s.ip
    imem := placeWord s.imem ((fetchableIp s.ip).toNat / 4) w }

end Sys2Proof.Machine
end

