-- ==== Sys2Proof/Machine/Step.lean ====
section
/-! DEFINITION. One cycle of CORE (spec/40_datapath.md R63), and the placing of a word for the next fetch. -/

namespace Sys2Proof.Machine

/-- One step: the front of the cycle, then the instruction. -/
def step (s : State) : Host.Outcome State Fault Refusal :=
  match fetchDecode s with
  | .stuck st => .fault (.runEnded st)
  | .stop t => .next t
  | .run i t => exec i t

/-- The state with a table row's word stored where `step` fetches its next instruction. Instruction memory is an input of the
run that no step writes, so this stands for the load of a program from outside (notes/assumptions/8.md). -/
def State.withFetchWord (s : State) (nbits w : Nat) : State := placeFetchWord s (tableWord nbits w)

end Sys2Proof.Machine
end

