-- ==== Sys2Proof/Machine/Cycle.lean ====
section
/-! DEFINITION. The cycle written a second time, straight from the pseudocode of spec/40_datapath.md R63: Instruction record, control
unit, stages, with no `Instr` between. Statements compare it with `step`. -/

namespace Sys2Proof.Machine

/-- `Step(s)` of R63 from a running state, with the checks in its order (spec/60_exceptions.md R96); stuck from an ended run (R99). -/
def cycleByControlUnit (s : State) : Host.Outcome State Fault Refusal :=
  match s.status with
  | .running =>
    if s.ip.toNat ≥ s.imemSize then .next (s.endRun .halted)
    else if s.ip.toNat % 4 ≠ 0 then .next (s.endRun (.faulted .fetchMisaligned s.ip))
    else
      let w := s.iFetch s.ip
      let s1 := s.emitTrace w
      let I := decodeFields w
      match derive I.opcode I.funct with
      | .error e => .next (s1.endRun (.aborted e.kind e.code))
      | .ok C => datapath C I s1
  | ended => .fault (.runEnded ended)

end Sys2Proof.Machine
end

