-- ==== Sys2Proof/WellFormed.lean ====
section
/-! DEFINITION. The checks. Every value of every operand field is one the encoding admits ("every value 0–31 is valid and none is
special", spec/30_encoding.md R45; R51), and the field types of `Instr` hold no other value, so an instruction of the hardware
needs no check of its ranges. What is checked is the form the spec's own syntax writes (R53) and a launch (92 D9). -/

namespace Sys2Proof

/-- The instruction has the form R53's syntax writes: bits 10–6 of a register-format word are 0, and `lui` has `rs` 0. The
hardware runs the other forms as well (R44, R87), and so does this model; no statement shuts them out. -/
def Instr.assemblerForm (i : Instr) : Bool :=
  match i with
  | .add _ _ _ ign => ign == 0#5
  | .addu _ _ _ ign => ign == 0#5
  | .sub _ _ _ ign => ign == 0#5
  | .subu _ _ _ ign => ign == 0#5
  | .and _ _ _ ign => ign == 0#5
  | .or _ _ _ ign => ign == 0#5
  | .xor _ _ _ ign => ign == 0#5
  | .nor _ _ _ ign => ign == 0#5
  | .slt _ _ _ ign => ign == 0#5
  | .sltu _ _ _ ign => ign == 0#5
  | .j _ => true
  | .beq _ _ _ => true
  | .bne _ _ _ => true
  | .addi _ _ _ => true
  | .addiu _ _ _ => true
  | .slti _ _ _ => true
  | .sltiu _ _ _ => true
  | .andi _ _ _ => true
  | .ori _ _ _ => true
  | .lui rs _ _ => rs == 0#5
  | .lb _ _ _ => true
  | .lw _ _ _ => true
  | .sb _ _ _ => true
  | .sw _ _ _ => true

/-- A launch the spec allows: `IMEM_SIZE <= 0xFFFFFFFC` (spec/20_memory.md R26, 92 D9; a multiple of 4 by construction),
`DMEM_SIZE <= 2^32` (R28), and `DMEM0` listed canonically and only below `DMEM_SIZE`. -/
def Launch.wellFormed (l : Launch) : Bool :=
  decide (l.imemSize ≤ imemSizeMax) && decide (l.dmemSize ≤ dmemSizeMax)
    && Machine.Memory.wf l.dmem0 && Machine.Memory.below l.dmemSize l.dmem0

end Sys2Proof
end

