-- ==== Sys2Proof/Machine/Entry.lean ====
section
/-! DEFINITION. The entry point (spec/40_datapath.md R64, R66; spec/70_reset_and_hazards.md R107, R109): launch, run, result. -/

namespace Sys2Proof.Machine

/-- The call of the entry point: the start state of an allowed launch; any other launch is refused (92 D9). -/
def launch (l : Launch) : Host.Outcome State Fault Refusal :=
  if l.wellFormed then .next (State.ofLaunch l) else .refused .launchRefused

/-- The error kinds, a five-constructor enumeration without numbers, each with its recorded value (spec/60_exceptions.md R95). -/
inductive RunError where
  | unsupportedOpcode (code : BitVec 6)
  | unsupportedFunct (code : BitVec 6)
  | fetchMisaligned (addr : Word)
  | dataMisaligned (addr : Word)
  | dataOutOfRange (addr : Word)
deriving DecidableEq, Repr

/-- What the entry point returns (R66). -/
inductive RunResult where
  | ok
  | err (e : RunError)
deriving DecidableEq, Repr

/-- The error of an aborted status (R66, R93). -/
def abortError (kind : AbortKind) (code : BitVec 6) : RunError :=
  match kind with
  | .unsupportedOpcode => .unsupportedOpcode code
  | .unsupportedFunct => .unsupportedFunct code

/-- The error of a faulted status (R66, R94). -/
def faultError (kind : FaultKind) (addr : Word) : RunError :=
  match kind with
  | .fetchMisaligned => .fetchMisaligned addr
  | .dataMisaligned => .dataMisaligned addr
  | .dataOutOfRange => .dataOutOfRange addr

/-- The result the entry point returns with a status; none while the run goes on (R66). -/
def runResult (st : RunStatus) : Option RunResult :=
  match st with
  | .running => none
  | .halted => some .ok
  | .aborted kind code => some (.err (abortError kind code))
  | .faulted kind addr => some (.err (faultError kind addr))

/-- At most `n` steps, until the status is no longer Running (R66). A run that is still Running after them has no result yet
(93 U18). -/
def runFor (n : Nat) (s : State) : State :=
  match n with
  | 0 => s
  | k + 1 =>
    if s.status = .running then
      match step s with
      | .next t => runFor k t
      | _ => s
    else s

end Sys2Proof.Machine
end

