-- ==== Sys2Proof/Safety.lean ====
section
/-! DEFINITION. The terms claims use: what two states share, what an ended run's status says of its state, and the invariant of the
machine. -/

namespace Sys2Proof.Machine

/-! ## Frames -/

/-- Every byte of data memory reads the same. -/
def SameBytes (s t : State) : Prop := ∀ a : Nat, t.byteAt a = s.byteAt a

/-- Every register but `d` reads the same. -/
def SameRegsBut (d : RegIx) (s t : State) : Prop := ∀ r : RegIx, r ≠ d → t.reg r = s.reg r

/-- Every register reads the same. -/
def SameRegs (s t : State) : Prop := ∀ r : RegIx, t.reg r = s.reg r

/-- The launch parameters are the same: a run never changes them (spec/20_memory.md R25, R31; spec/40_datapath.md R64). -/
def SameLaunch (s t : State) : Prop :=
  t.imem = s.imem ∧ t.dmemSize = s.dmemSize ∧ t.endian = s.endian ∧ t.debug = s.debug

/-- The run goes on as it was: same launch parameters, same status, no trace event. -/
def SameRun (s t : State) : Prop := SameLaunch s t ∧ t.status = s.status ∧ t.trace = s.trace

/-- The whole effect of an instruction that writes `v` to register `d` and steps to the next word: the register-format and
immediate-format ALU instructions and the loads (spec/40_datapath.md R61, R62). -/
def WritesRegister (d : RegIx) (v : Word) (s t : State) : Prop :=
  t.reg d = v ∧ SameRegsBut d s t ∧ SameBytes s t ∧ t.ip = s.ip + 4#32 ∧ SameRun s t

/-- The whole effect of a jump or branch: only the instruction pointer changes (spec/42_jump_branch.md). -/
def MovesIp (target : Word) (s t : State) : Prop :=
  t.ip = target ∧ SameRegs s t ∧ SameBytes s t ∧ SameRun s t

/-- Everything but `status` is the same, the register list and the byte list included: an error is precise
(spec/60_exceptions.md R98). -/
def SameButStatus (s t : State) : Prop :=
  t.ip = s.ip ∧ t.regs = s.regs ∧ t.dmem = s.dmem ∧ t.trace = s.trace ∧ SameLaunch s t

/-! ## Ended runs -/

/-- A run ended by an error; "an ended-by-error state is never a successful final state" (R99). -/
def RunStatus.isError (st : RunStatus) : Bool :=
  match st with
  | .running => false
  | .halted => false
  | .aborted _ _ => true
  | .faulted _ _ => true

/-- The instruction at `ip` is a byte access at address `a` (spec/44_load_store.md R88, R90). -/
def ByteAccessAt (s : State) (a : Word) : Prop :=
  ∃ rs rt imm16, (decode (s.iFetch s.ip) = .ok (.lb rs rt imm16) ∨ decode (s.iFetch s.ip) = .ok (.sb rs rt imm16))
    ∧ a = s.reg rs + zext imm16

/-- The instruction at `ip` is a word access at address `a` (R89, R91). -/
def WordAccessAt (s : State) (a : Word) : Prop :=
  ∃ rs rt imm16, (decode (s.iFetch s.ip) = .ok (.lw rs rt imm16) ∨ decode (s.iFetch s.ip) = .ok (.sw rs rt imm16))
    ∧ a = s.reg rs + zext imm16

/-- `ip` is where R26 defines the fetch. -/
def Fetchable (s : State) : Prop := s.ip.toNat < s.imemSize ∧ s.ip.toNat % 4 = 0

/-- The status of an ended run says truly, of the state it stands in, why the run ended: the conditions of R64, R93 and R94 hold
of the unchanged `ip`, registers and sizes (R98). -/
def StatusExplained (s : State) : Prop :=
  match s.status with
  | .running => True
  | .halted => s.imemSize ≤ s.ip.toNat
  | .aborted kind code => Fetchable s ∧ decode (s.iFetch s.ip) = .error ⟨kind, code⟩
  | .faulted .fetchMisaligned a => a = s.ip ∧ s.ip.toNat < s.imemSize ∧ s.ip.toNat % 4 ≠ 0
  | .faulted .dataMisaligned a => Fetchable s ∧ WordAccessAt s a ∧ a.toNat % 4 ≠ 0
  | .faulted .dataOutOfRange a =>
      Fetchable s ∧ ((ByteAccessAt s a ∧ s.dmemSize ≤ a.toNat)
        ∨ (WordAccessAt s a ∧ a.toNat % 4 = 0 ∧ s.dmemSize ≤ a.toNat + 3))

/-! ## Invariants -/

/-- The sizes of an allowed launch (spec/20_memory.md R26, R28). -/
def SizesAllowed (s : State) : Prop := s.imemSize ≤ imemSizeMax ∧ s.dmemSize ≤ dmemSizeMax

/-- Data memory is canonical and lists nothing outside `DMEM_SIZE` (R28). -/
def MemoryCanonical (s : State) : Prop := Memory.wf s.dmem = true ∧ Memory.below s.dmemSize s.dmem = true

/-- Every trace event records a word of the program at an address a fetch can read (spec/40_datapath.md R65), and nothing is
emitted unless the debug flag is set. -/
def TraceTrue (s : State) : Prop :=
  (∀ e ∈ s.trace, e.ip.toNat < s.imemSize ∧ e.ip.toNat % 4 = 0 ∧ e.word = s.iFetch e.ip)
    ∧ (s.debug = false → s.trace = [])

end Sys2Proof.Machine
end

