-- ==== Sys2Proof/Certificates/Slice0/Obligations.lean ====
section
/-! DEFINITION. The statements for the provers. Each docstring names the rule of spec/ it comes from; a clause that rests on one of the
spec's own decisions (92 D<n>) or on this model's choice says so and names the log entry. -/

namespace Sys2Proof.Machine

/-! ## Terms of the statements -/

/-- One line of the signal table, its columns in the table's order, `1` true (spec/30_encoding.md R48). -/
def signalLine (regDst regWrite branch jump memRead memWrite memToReg memByByte immUpper : Nat) (op : AluOp)
    (bnegate notRes : Nat) : ControlBits :=
  ⟨regDst == 1, regWrite == 1, branch == 1, jump == 1, memRead == 1, memWrite == 1, memToReg == 1, memByByte == 1,
    immUpper == 1, op, bnegate == 1, notRes == 1⟩

/-- The signal table of R48, transcribed a second time, line by line, from the spec and not from Decode.lean's rows. -/
def signalTable (i : Instr) : ControlBits :=
  match i with
  | .add _ _ _ _ => signalLine 1 1 0 0 0 0 0 0 0 .add 0 0
  | .addu _ _ _ _ => signalLine 1 1 0 0 0 0 0 0 0 .add 0 0
  | .sub _ _ _ _ => signalLine 1 1 0 0 0 0 0 0 0 .add 1 0
  | .subu _ _ _ _ => signalLine 1 1 0 0 0 0 0 0 0 .add 1 0
  | .and _ _ _ _ => signalLine 1 1 0 0 0 0 0 0 0 .and 0 0
  | .or _ _ _ _ => signalLine 1 1 0 0 0 0 0 0 0 .or 0 0
  | .xor _ _ _ _ => signalLine 1 1 0 0 0 0 0 0 0 .xor 0 0
  | .nor _ _ _ _ => signalLine 1 1 0 0 0 0 0 0 0 .or 0 1
  | .slt _ _ _ _ => signalLine 1 1 0 0 0 0 0 0 0 .slt 1 0
  | .sltu _ _ _ _ => signalLine 1 1 0 0 0 0 0 0 0 .slt 1 0
  | .j _ => signalLine 0 0 0 1 0 0 0 0 0 .and 0 0
  | .beq _ _ _ => signalLine 1 0 1 0 0 0 0 0 0 .xor 0 1
  | .bne _ _ _ => signalLine 1 0 1 0 0 0 0 0 0 .xor 0 0
  | .addi _ _ _ => signalLine 0 1 0 0 0 0 0 0 0 .add 0 0
  | .addiu _ _ _ => signalLine 0 1 0 0 0 0 0 0 0 .add 0 0
  | .slti _ _ _ => signalLine 1 1 0 0 0 0 0 0 0 .slt 1 0
  | .sltiu _ _ _ => signalLine 1 1 0 0 0 0 0 0 0 .slt 1 0
  | .andi _ _ _ => signalLine 0 1 0 0 0 0 0 0 0 .and 0 0
  | .ori _ _ _ => signalLine 0 1 0 0 0 0 0 0 0 .or 0 0
  | .lui _ _ _ => signalLine 0 1 0 0 0 0 0 0 1 .or 0 0
  | .lb _ _ _ => signalLine 0 1 0 0 1 0 1 1 0 .add 0 0
  | .lw _ _ _ => signalLine 0 1 0 0 1 0 1 0 0 .add 0 0
  | .sb _ _ _ => signalLine 0 0 0 0 0 1 0 1 0 .add 0 0
  | .sw _ _ _ => signalLine 0 0 0 0 0 1 0 0 0 .add 0 0

/-- The fifteen supported opcodes (R51). -/
def supportedOpcodes : List Nat :=
  [0x00, 0x02, 0x04, 0x05, 0x08, 0x09, 0x0A, 0x0B, 0x0C, 0x0D, 0x0F, 0x20, 0x23, 0x28, 0x2B]

/-- The ten supported functs under opcode 0 (R51). -/
def supportedFuncts : List Nat := [0x20, 0x21, 0x22, 0x23, 0x24, 0x25, 0x26, 0x27, 0x2A, 0x2B]

/-- Two words that differ at most in bits 10–6. -/
def AgreeOffIgnored (w w' : Word) : Prop := ∀ k : Nat, k < 6 ∨ 10 < k → w.getLsbD k = w'.getLsbD k

/-- The instruction reads or writes data memory, branches or jumps. -/
def leavesStraightLine (i : Instr) : Bool :=
  let C := rowOf i
  C.memRead || C.memWrite || C.branch || C.jump

/-- The run's content, less the debug output. -/
def quiet (s : State) : State := { s with debug := false, trace := [] }

/-- `s'` is `s` with the registers renamed by `p`. -/
def Renamed (p : Equiv.Perm RegIx) (s s' : State) : Prop :=
  (∀ r : RegIx, s'.reg (p r) = s.reg r) ∧ s'.ip = s.ip ∧ s'.dmem = s.dmem ∧ s'.status = s.status ∧ s'.trace = s.trace
    ∧ SameLaunch s s'

/-- The value of four bytes in address order, the first the lowest in little-endian order (spec/20_memory.md R30). -/
def wordValue (e : Endian) (b0 b1 b2 b3 : Byte) : Nat :=
  match e with
  | .little => b0.toNat + 2 ^ 8 * b1.toNat + 2 ^ 16 * b2.toNat + 2 ^ 24 * b3.toNat
  | .big => b3.toNat + 2 ^ 8 * b2.toNat + 2 ^ 16 * b1.toNat + 2 ^ 24 * b0.toNat

/-- Byte `k` in address order of a stored word (R30). -/
def storedByteValue (e : Endian) (v : Word) (k : Nat) : Nat :=
  match e with
  | .little => v.toNat / 2 ^ (8 * k) % 2 ^ 8
  | .big => v.toNat / 2 ^ (8 * (3 - k)) % 2 ^ 8

end Sys2Proof.Machine

open Sys2Proof Sys2Proof.Machine

/-! ## Encoding -/

/-- Words written out from the spec's encodings decode to the instructions they stand for: one or more of every family, a word
with ignored bits set, `slti` with its destination in the immediate, `lui` with `rs` not 0, and four words that abort. Basis
derived: the numbers are the spec's decision D12 (PRESUMED, log 10); sources are the example words of spec/41_r_format.md to
spec/44_load_store.md and spec/95_test_vectors.md DEC1, DEC2, DEC4, DEC5, S11, ER3. -/
def Obligations.SampleWordsDecode : Prop :=
  decode 0x00221820#32 = .ok (.add 1 2 3 0) ∧ decode 0x00221822#32 = .ok (.sub 1 2 3 0)
    ∧ decode 0x00412A2A#32 = .ok (.slt 2 1 5 8) ∧ decode 0x0A000010#32 = .ok (.j 0x2000010)
    ∧ decode 0x10220020#32 = .ok (.beq 1 2 0x0020) ∧ decode 0x14220020#32 = .ok (.bne 1 2 0x0020)
    ∧ decode 0x2041FFFF#32 = .ok (.addi 2 1 0xFFFF) ∧ decode 0x28411805#32 = .ok (.slti 2 1 0x1805)
    ∧ decode 0x3C411234#32 = .ok (.lui 2 1 0x1234) ∧ decode 0x8C020010#32 = .ok (.lw 0 2 0x0010)
    ∧ decode 0xA0010020#32 = .ok (.sb 0 1 0x0020) ∧ decode 0x00000000#32 = .error ⟨.unsupportedFunct, 0x00⟩
    ∧ decode 0x0C000000#32 = .error ⟨.unsupportedOpcode, 0x03⟩ ∧ decode 0x38220003#32 = .error ⟨.unsupportedOpcode, 0x0E⟩
    ∧ decode 0xFFFFFFFF#32 = .error ⟨.unsupportedOpcode, 0x3F⟩

/-- Decoding an encoded instruction gives it back, for every instruction and every operand value. -/
def Obligations.DecodeOfEncode : Prop := ∀ i : Instr, decode (encode i) = .ok i

/-- Encoding a decoded word gives the word back: every supported word is the word of exactly one instruction and decoding drops
no bit, the ignored bits included (log 22). -/
def Obligations.EncodeOfDecode : Prop := ∀ (w : Word) (i : Instr), decode w = .ok i → encode i = w

/-- Which words abort, with which error and code, and that every other word decodes (R51, R93). Basis derived: the code lists are
the spec's decision D12 (PRESUMED, log 10). -/
def Obligations.UnsupportedWordsAbort : Prop :=
  ∀ w : Word,
    (∀ c, decode w = .error ⟨.unsupportedOpcode, c⟩ ↔ c = w.extractLsb' 26 6 ∧ c.toNat ∉ supportedOpcodes)
    ∧ (∀ c, decode w = .error ⟨.unsupportedFunct, c⟩ ↔
        w.extractLsb' 26 6 = 0#6 ∧ c = w.extractLsb' 0 6 ∧ c.toNat ∉ supportedFuncts)
    ∧ ((∃ i, decode w = .ok i) ↔
        (w.toNat / 2 ^ 26 ∈ supportedOpcodes ∧ (w.toNat / 2 ^ 26 = 0 → w.toNat % 2 ^ 6 ∈ supportedFuncts)))

/-- R44: the record of every word, each field read as a number; the overlapping fields come from the same bits; bits 10–6 of a
register-format word influence nothing: two such words that differ only there abort alike or run alike; and what an instruction
does is decided by its record and its control vector alone. -/
def Obligations.DecoderRecordOfEveryWord : Prop :=
  (∀ w : Word,
    (decodeFields w).opcode.toNat = w.toNat / 2 ^ 26 ∧ (decodeFields w).rs.toNat = w.toNat / 2 ^ 21 % 2 ^ 5
      ∧ (decodeFields w).rt.toNat = w.toNat / 2 ^ 16 % 2 ^ 5 ∧ (decodeFields w).rd.toNat = w.toNat / 2 ^ 11 % 2 ^ 5
      ∧ (decodeFields w).funct.toNat = w.toNat % 2 ^ 6 ∧ (decodeFields w).imm16.toNat = w.toNat % 2 ^ 16
      ∧ (decodeFields w).addr.toNat = w.toNat % 2 ^ 26
      ∧ (decodeFields w).rd = (decodeFields w).imm16.extractLsb' 11 5)
  ∧ (∀ w w' : Word, (decodeFields w).opcode = 0#6 → AgreeOffIgnored w w' →
      (∀ e, decode w = .error e ↔ decode w' = .error e)
      ∧ ∀ i i', decode w = .ok i → decode w' = .ok i' → ∀ s, exec i s = exec i' s)
  ∧ ∀ (w : Word) (i : Instr) (s : State), decode w = .ok i →
      ∃ C, derive (decodeFields w).opcode (decodeFields w).funct = .ok C ∧ exec i s = datapath C (decodeFields w) s

/-- R48: the control unit gives every supported word the line of the signal table its instruction has, the literal readings of
`beq`, `bne`, `slti`, `sltiu` and of the unsigned variants included; the table is transcribed a second time in `signalTable`. -/
def Obligations.SignalTableReproduced : Prop :=
  ∀ (w : Word) (i : Instr), decode w = .ok i →
    derive (decodeFields w).opcode (decodeFields w).funct = .ok (signalTable i)

/-- The decoder of instructions and the control unit reject the same words with the same error (R50, R93), and the funct of a
word whose opcode is not 0 is ignored. Basis derived: D12. -/
def Obligations.ControlUnitRejectsSameWords : Prop :=
  (∀ (w : Word) (e : DecodeAbort),
    decode w = .error e ↔ derive (decodeFields w).opcode (decodeFields w).funct = .error e)
  ∧ ∀ (op : Opcode) (f g : Funct), op ≠ 0#6 → derive op f = derive op g

/-! ## ALU and flag -/

/-- R56: with `bnegate` the second input is two's-complement negated before the operation, whatever the operation. -/
def Obligations.BnegateNegatesInput2 : Prop :=
  (∀ (op : AluOp) (a b : Word), aluExecute op a b true = aluExecute op a (neg b) false)
    ∧ (∀ v : Word, (neg v).toNat = (2 ^ 32 - v.toNat) % 2 ^ 32) ∧ neg 0#32 = 0#32 ∧ neg 0x80000000#32 = 0x80000000#32

/-- R58: the zero output is true exactly when the result, before any inversion, is 0; with the source's four examples. -/
def Obligations.ZeroOutputIffResultZero : Prop :=
  (∀ (op : AluOp) (a b : Word) (n : Bool), (aluExecute op a b n).2 = true ↔ (aluExecute op a b n).1 = 0#32)
    ∧ aluExecute .add 5#32 3#32 false = (8#32, false) ∧ aluExecute .add 5#32 3#32 true = (2#32, false)
    ∧ aluExecute .and 0xFF#32 0x0F#32 false = (0x0F#32, false) ∧ aluExecute .or 0#32 0#32 false = (0#32, true)

/-- R59: `not_res` complements the result and negates the flag; the inverted flag says that the uninverted result was not 0, which
is not in general that the inverted result is 0; only `nor` and `beq` have `not_res`; with the source's example. -/
def Obligations.NotResInvertsResultAndFlag : Prop :=
  (∀ (C : ControlBits) (F : Fields) (s : State),
    let raw := aluExecute C.aluOp (aluIn1 F s) (aluIn2 C F s) C.aluBnegate
    (C.notRes = false → aluStage C F s = raw)
      ∧ (C.notRes = true → (aluStage C F s).1 = ~~~raw.1 ∧ ((aluStage C F s).2 = true ↔ raw.1 ≠ 0#32)))
  ∧ invert true (0#32, true) = (0xFFFFFFFF#32, false) ∧ invert true (5#32, false) = (0xFFFFFFFA#32, true)
  ∧ ∀ (w : Word) (i : Instr) (C : ControlBits), decode w = .ok i →
      derive (decodeFields w).opcode (decodeFields w).funct = .ok C →
      (C.notRes = true ↔ (∃ rs rt rd ign, i = .nor rs rt rd ign) ∨ ∃ rs rt imm16, i = .beq rs rt imm16)

/-- The less-than operation against the signed comparison: equal to it where the subtraction does not overflow, its opposite where
it does (R57, R76). Basis derived: the spec's decision D3 (log 11). -/
def Obligations.LessThanAgreesUnlessOverflow : Prop :=
  ∀ a b : Word,
    let d := a.toInt - b.toInt
    (aluExecute .slt a b true).1 =
      (if -(2 ^ 31) ≤ d ∧ d < 2 ^ 31 then (if a.toInt < b.toInt then 1#32 else 0#32)
       else (if a.toInt < b.toInt then 0#32 else 1#32))

/-- The operand selection for every record and control vector: input 1 is x[rs]; input 2 is x[rt], or the immediate as a number,
never negative, times 2^16 with `imm_upper` (R45, R55). Basis derived: R45 and R55 say more than this. -/
def Obligations.OperandSelection : Prop :=
  ∀ (C : ControlBits) (F : Fields) (s : State),
    aluIn1 F s = s.reg F.rs ∧ (C.regDst = true → aluIn2 C F s = s.reg F.rt)
      ∧ (C.regDst = false → C.immUpper = true → (aluIn2 C F s).toNat = F.imm16.toNat * 2 ^ 16)
      ∧ (C.regDst = false → C.immUpper = false → (aluIn2 C F s).toNat = F.imm16.toNat)

/-! ## Write-back and program counter -/

/-- R61: the write-back stage for every control vector, register 0 as a destination included: what is committed and where, that
nothing else changes, and that every row with `mem_to_reg` has `mem_read`, so its value exists. -/
def Obligations.WriteBackCommits : Prop :=
  (∀ (C : ControlBits) (F : Fields) (r : Word) (m : Option Word) (s : State),
    (C.regWrite = false → writeBack C F r m s = s)
      ∧ ∀ v, C.regWrite = true → (C.memToReg = true → m = some v) → (C.memToReg = false → v = r) →
          let t := writeBack C F r m s
          let d := if C.regDst then F.rd else F.rt
          t.reg d = v ∧ SameRegsBut d s t ∧ SameBytes s t ∧ t.ip = s.ip ∧ SameRun s t)
  ∧ ∀ (op : Opcode) (f : Funct) (C : ControlBits), derive op f = .ok C → C.memToReg = true → C.memRead = true

/-- R62: the program-counter update for every control vector, with the priority branch > jump > sequential, the fields of each
target, and the source's examples; nothing but `ip` changes; and there is no delay slot: after an
instruction, the next instruction executed is the one at the new `ip`. -/
def Obligations.ProgramCounterUpdate : Prop :=
  (∀ (C : ControlBits) (F : Fields) (z : Bool) (s : State),
    let t := pcUpdate C F z s
    (C.branch = true → z = true →
      t.ip = (s.ip &&& 0xFFFF0000#32) ||| zext F.imm16
        ∧ t.ip.extractLsb' 16 16 = s.ip.extractLsb' 16 16 ∧ t.ip.extractLsb' 0 16 = F.imm16)
    ∧ (¬ (C.branch = true ∧ z = true) → C.jump = true →
      t.ip = (s.ip &&& 0xFF000000#32) ||| zext F.addr
        ∧ t.ip.extractLsb' 26 6 = s.ip.extractLsb' 26 6
        ∧ t.ip.extractLsb' 24 2 = s.ip.extractLsb' 24 2 ||| F.addr.extractLsb' 24 2
        ∧ t.ip.extractLsb' 0 24 = F.addr.extractLsb' 0 24)
    ∧ (¬ (C.branch = true ∧ z = true) → C.jump = false → t.ip = s.ip + 4#32)
    ∧ SameRegs s t ∧ SameBytes s t ∧ SameRun s t)
  ∧ branchTarget 0x00001000#32 0x0020#16 = 0x00000020#32 ∧ jumpTarget 0x00400000#32 0x0000010#26 = 0x00000010#32
  ∧ ∀ (i i' : Instr) (s t : State), exec i s = .next t → t.status = .running → Fetchable t →
      decode (t.iFetch t.ip) = .ok i' → step t = exec i' (t.emitTrace (t.iFetch t.ip))

/-! ## Register-format instructions -/

/-- `add`, `addu`, `sub`, `subu`: every one completes on every operand, writes the wrapped sum or difference to x[rd] (rd 0
included), moves `ip` by 4 and changes nothing else (spec/41_r_format.md R68 to R71). Bits 10–6 do not matter. -/
def Obligations.AddSubResults : Prop :=
  ∀ (rs rt rd : RegIx) (ign : Ignored) (s : State),
    (∃ t, exec (.add rs rt rd ign) s = .next t ∧ WritesRegister rd (s.reg rs + s.reg rt) s t)
    ∧ (∃ t, exec (.addu rs rt rd ign) s = .next t ∧ WritesRegister rd (s.reg rs + s.reg rt) s t)
    ∧ (∃ t, exec (.sub rs rt rd ign) s = .next t ∧ WritesRegister rd (s.reg rs - s.reg rt) s t)
    ∧ (∃ t, exec (.subu rs rt rd ign) s = .next t ∧ WritesRegister rd (s.reg rs - s.reg rt) s t)

/-- `and`, `or`, `xor`, `nor`: result, completion and frame (R72 to R75). -/
def Obligations.LogicResults : Prop :=
  ∀ (rs rt rd : RegIx) (ign : Ignored) (s : State),
    (∃ t, exec (.and rs rt rd ign) s = .next t ∧ WritesRegister rd (s.reg rs &&& s.reg rt) s t)
    ∧ (∃ t, exec (.or rs rt rd ign) s = .next t ∧ WritesRegister rd (s.reg rs ||| s.reg rt) s t)
    ∧ (∃ t, exec (.xor rs rt rd ign) s = .next t ∧ WritesRegister rd (s.reg rs ^^^ s.reg rt) s t)
    ∧ (∃ t, exec (.nor rs rt rd ign) s = .next t ∧ WritesRegister rd (~~~(s.reg rs ||| s.reg rt)) s t)

/-- `slt`, `sltu`: both write 1 when the wrapped difference is negative and 0 otherwise; `sltu` is not an unsigned comparison
(R76, R77, 90 C4). Basis derived: the value is the spec's decision D3 (log 11). -/
def Obligations.SetLessThanResults : Prop :=
  ∀ (rs rt rd : RegIx) (ign : Ignored) (s : State),
    let v : Word := if 2 ^ 31 ≤ (s.reg rs - s.reg rt).toNat then 1#32 else 0#32
    (∃ t, exec (.slt rs rt rd ign) s = .next t ∧ WritesRegister rd v s t)
    ∧ (∃ t, exec (.sltu rs rt rd ign) s = .next t ∧ WritesRegister rd v s t)

/-! ## Jump and branches -/

/-- `j` completes on every operand and only moves `ip`, to the ORed target; no link register exists (R78). -/
def Obligations.JumpResult : Prop :=
  ∀ (addr : Addr26) (s : State),
    ∃ t, exec (.j addr) s = .next t ∧ MovesIp ((s.ip &&& 0xFF000000#32) ||| zext addr) s t

/-- `beq` is taken exactly when the registers differ and `bne` exactly when they are equal; both complete on every operand and
only move `ip` (R79, R80, 90 C1; log 24). -/
def Obligations.BranchResults : Prop :=
  ∀ (rs rt : RegIx) (imm16 : Imm16) (s : State),
    let target := (s.ip &&& 0xFFFF0000#32) ||| zext imm16
    (∃ t, exec (.beq rs rt imm16) s = .next t ∧ MovesIp (if s.reg rs ≠ s.reg rt then target else s.ip + 4#32) s t)
    ∧ (∃ t, exec (.bne rs rt imm16) s = .next t ∧ MovesIp (if s.reg rs = s.reg rt then target else s.ip + 4#32) s t)

/-! ## Immediate-format instructions -/

/-- `addi`, `addiu`, `andi`, `ori`, `lui`: result with the zero-extended immediate, completion and frame; `lui` ORs into x[rs]
(R81, R82, R85 to R87). -/
def Obligations.ImmediateResults : Prop :=
  ∀ (rs rt : RegIx) (imm16 : Imm16) (s : State),
    (∃ t, exec (.addi rs rt imm16) s = .next t ∧ WritesRegister rt (s.reg rs + zext imm16) s t)
    ∧ (∃ t, exec (.addiu rs rt imm16) s = .next t ∧ WritesRegister rt (s.reg rs + zext imm16) s t)
    ∧ (∃ t, exec (.andi rs rt imm16) s = .next t ∧ WritesRegister rt (s.reg rs &&& zext imm16) s t)
    ∧ (∃ t, exec (.ori rs rt imm16) s = .next t ∧ WritesRegister rt (s.reg rs ||| zext imm16) s t)
    ∧ (∃ t, exec (.lui rs rt imm16) s = .next t ∧ WritesRegister rt (s.reg rs ||| (zext imm16 <<< 16)) s t)

/-- `slti`, `sltiu`: both compare x[rs] with x[rt] and write x[imm16[15:11]]; the rest of the immediate is ignored and x[rt] is
not written (unless it is that register) (R83, R84, 90 C2 and C4). Basis derived: D3 (log 11). -/
def Obligations.SetLessThanImmediateResults : Prop :=
  ∀ (rs rt : RegIx) (imm16 : Imm16) (s : State),
    let v : Word := if 2 ^ 31 ≤ (s.reg rs - s.reg rt).toNat then 1#32 else 0#32
    let d : RegIx := BitVec.ofNat 5 (imm16.toNat / 2 ^ 11)
    (∃ t, exec (.slti rs rt imm16) s = .next t ∧ WritesRegister d v s t)
    ∧ (∃ t, exec (.sltiu rs rt imm16) s = .next t ∧ WritesRegister d v s t)

/-! ## Loads and stores -/

/-- `lb` completes at every address below `DMEM_SIZE`, aligned or not, and writes the byte there, zero-extended (R88). Basis
derived: zero extension is the spec's decision D4 (log 12), the range D6 (log 14). -/
def Obligations.LoadByteResult : Prop :=
  ∀ (rs rt : RegIx) (imm16 : Imm16) (s : State),
    let ea := s.reg rs + zext imm16
    ea.toNat < s.dmemSize →
      ∃ t, exec (.lb rs rt imm16) s = .next t ∧ WritesRegister rt (zext (s.byteAt ea.toNat)) s t

/-- `lw` completes at every aligned address whose four bytes lie below `DMEM_SIZE` and writes their value in the order of `ENDIAN`
(R30, R89). Basis derived: D2, D6, D7 (log 6, 14, 15). -/
def Obligations.LoadWordResult : Prop :=
  ∀ (rs rt : RegIx) (imm16 : Imm16) (s : State),
    let ea := s.reg rs + zext imm16
    let a := ea.toNat
    a % 4 = 0 → a + 3 < s.dmemSize →
      ∃ t v, exec (.lw rs rt imm16) s = .next t ∧ WritesRegister rt v s t
        ∧ v.toNat = wordValue s.endian (s.byteAt a) (s.byteAt (a + 1)) (s.byteAt (a + 2)) (s.byteAt (a + 3))

/-- `sb` completes at every address below `DMEM_SIZE`, stores the low 8 bits of x[rt] there and changes no other byte and no
register (R29, R90). The premise on the canonical form is the invariant of StepKeepsMemoryCanonical. Basis derived: D5, D6
(log 13, 14). -/
def Obligations.StoreByteResult : Prop :=
  ∀ (rs rt : RegIx) (imm16 : Imm16) (s : State), Memory.wf s.dmem = true →
    let ea := s.reg rs + zext imm16
    ea.toNat < s.dmemSize →
      ∃ t, exec (.sb rs rt imm16) s = .next t
        ∧ (t.byteAt ea.toNat).toNat = (s.reg rt).toNat % 2 ^ 8
        ∧ (∀ q : Nat, q ≠ ea.toNat → t.byteAt q = s.byteAt q)
        ∧ SameRegs s t ∧ t.ip = s.ip + 4#32 ∧ SameRun s t

/-- `sw` completes at every aligned address whose four bytes lie below `DMEM_SIZE`, stores the four bytes of x[rt] in the order of
`ENDIAN` and changes no other byte and no register (R30, R91). The premise on the canonical form is the invariant of
StepKeepsMemoryCanonical. Basis derived: D2, D6, D7 (log 6, 14, 15). -/
def Obligations.StoreWordResult : Prop :=
  ∀ (rs rt : RegIx) (imm16 : Imm16) (s : State), Memory.wf s.dmem = true →
    let ea := s.reg rs + zext imm16
    let a := ea.toNat
    a % 4 = 0 → a + 3 < s.dmemSize →
      ∃ t, exec (.sw rs rt imm16) s = .next t
        ∧ (∀ k : Nat, k < 4 → (t.byteAt (a + k)).toNat = storedByteValue s.endian (s.reg rt) k)
        ∧ (∀ q : Nat, q < a ∨ a + 4 ≤ q → t.byteAt q = s.byteAt q)
        ∧ SameRegs s t ∧ t.ip = s.ip + 4#32 ∧ SameRun s t

/-- The data faults of R94: which access faults, with which kind and address, alignment before range; the faulting access changes
nothing but `status`. This says where `lb`, `lw`, `sb`, `sw` end a run, not where they complete. Basis derived: D6, D7
(log 14, 15). -/
def Obligations.DataFaultsAreRaised : Prop :=
  ∀ (rs rt : RegIx) (imm16 : Imm16) (s : State),
    let ea := s.reg rs + zext imm16
    let a := ea.toNat
    (s.dmemSize ≤ a → ∀ i ∈ [Instr.lb rs rt imm16, Instr.sb rs rt imm16],
      ∃ t, exec i s = .next t ∧ t.status = .faulted .dataOutOfRange ea ∧ SameButStatus s t)
    ∧ (a % 4 ≠ 0 → ∀ i ∈ [Instr.lw rs rt imm16, Instr.sw rs rt imm16],
      ∃ t, exec i s = .next t ∧ t.status = .faulted .dataMisaligned ea ∧ SameButStatus s t)
    ∧ (a % 4 = 0 → s.dmemSize ≤ a + 3 → ∀ i ∈ [Instr.lw rs rt imm16, Instr.sw rs rt imm16],
      ∃ t, exec i s = .next t ∧ t.status = .faulted .dataOutOfRange ea ∧ SameButStatus s t)

/-- A word stored and loaded back at the same base and offset is the same word, in either byte order, when the store and the load
name the same address (R37). -/
def Obligations.StoredWordLoadsBack : Prop :=
  ∀ (rs rt rt' : RegIx) (imm16 : Imm16) (s : State), Memory.wf s.dmem = true →
    (s.reg rs + zext imm16).toNat % 4 = 0 → (s.reg rs + zext imm16).toNat + 3 < s.dmemSize →
      ∃ t u, exec (.sw rs rt imm16) s = .next t ∧ exec (.lw rs rt' imm16) t = .next u ∧ u.reg rt' = s.reg rt

/-- The byte order is seen by a byte load of a stored word's first address: the low byte in little-endian order, the high byte in
big-endian order (R31). Basis derived: D2, D4 (log 6, 12). -/
def Obligations.FirstByteOfStoredWord : Prop :=
  ∀ (rs rt rt' : RegIx) (imm16 : Imm16) (s : State), Memory.wf s.dmem = true →
    (s.reg rs + zext imm16).toNat % 4 = 0 → (s.reg rs + zext imm16).toNat + 3 < s.dmemSize →
      ∃ t u, exec (.sw rs rt imm16) s = .next t ∧ exec (.lb rs rt' imm16) t = .next u
        ∧ (u.reg rt').toNat =
          (if s.endian = .little then (s.reg rt).toNat % 2 ^ 8 else (s.reg rt).toNat / 2 ^ 24)

/-- Two canonical memories that read the same at every address are the same list, so equal memories are equal data. This is a
property of the model's own form of memory (log 4). -/
def Obligations.CanonicalMemoriesEqualIfSameBytes : Prop :=
  ∀ m m' : Memory, Memory.wf m = true → Memory.wf m' = true → (∀ a : Nat, Memory.get m a = Memory.get m' a) → m = m'

/-! ## Registers -/

/-- R14: register 0 stores what is written and reads it back; an instruction whose destination is register 0 writes it and one
whose source is register 0 reads it. -/
def Obligations.RegisterZeroIsOrdinary : Prop :=
  (∀ (s : State) (v : Word), (s.setReg 0 v).reg 0 = v ∧ SameRegsBut 0 s (s.setReg 0 v))
  ∧ ∀ (rs : RegIx) (imm16 : Imm16) (s : State), ∃ t u,
      exec (.ori rs 0 imm16) s = .next t ∧ t.reg 0 = s.reg rs ||| zext imm16
        ∧ exec (.ori 0 rs 0) t = .next u ∧ u.reg rs = s.reg rs ||| zext imm16

/-- No register is special: renaming the registers of the record and of the state by any permutation renames the outcome, for
every control vector; and every instruction is the datapath with its row and record (R14, R45, R63). -/
def Obligations.NoRegisterIsSpecial : Prop :=
  (∀ (p : Equiv.Perm RegIx) (C : ControlBits) (F : Fields) (s s' : State), Renamed p s s' →
    ∃ t t', datapath C F s = .next t
      ∧ datapath C { F with rs := p F.rs, rt := p F.rt, rd := p F.rd } s' = .next t' ∧ Renamed p t t')
  ∧ ∀ (i : Instr) (s : State), exec i s = datapath (signalTable i) (decodeFields (encode i)) s

/-- At most one register is written per cycle, and `j`, `beq`, `bne`, `sb`, `sw` write none (R15; the spec marks R15 as derived). -/
def Obligations.AtMostOneRegisterPerCycle : Prop :=
  ∀ s t : State, step s = .next t →
    (∃ d : RegIx, SameRegsBut d s t)
    ∧ ∀ i, decode (s.iFetch s.ip) = .ok i → (rowOf i).regWrite = false → SameRegs s t

/-! ## The cycle -/

/-- When the machine runs, `ip` is in range and aligned, and the word at `ip` decodes to an instruction, the step is that
instruction's meaning on the state with the trace event emitted (R63). -/
def Obligations.StepRunsDecodedInstruction : Prop :=
  ∀ (s : State) (w : Word) (i : Instr), s.status = .running → s.ip.toNat % 4 = 0 → s.imem[s.ip.toNat / 4]? = some w →
    decode w = .ok i →
      step s = exec i (if s.debug then { s with trace := s.trace ++ [⟨s.ip, w⟩] } else s)

/-- The step at `ip >= IMEM_SIZE` halts the run and changes nothing else, alignment not looked at (R64, R96). -/
def Obligations.StepHaltsPastProgram : Prop :=
  ∀ s : State, s.status = .running → 4 * s.imem.length ≤ s.ip.toNat →
    ∃ t, step s = .next t ∧ t.status = .halted ∧ SameButStatus s t

/-- A fetch at an unaligned `ip` below `IMEM_SIZE` ends the run before any trace event and changes nothing but `status` (R94).
Basis derived: D8 (log 16). -/
def Obligations.MisalignedFetchFaults : Prop :=
  ∀ s : State, s.status = .running → s.ip.toNat < 4 * s.imem.length → s.ip.toNat % 4 ≠ 0 →
    ∃ t, step s = .next t ∧ t.status = .faulted .fetchMisaligned s.ip ∧ SameButStatus s t

/-- An unsupported word aborts the run with its kind and code; `ip`, registers and memory are unchanged, and the trace event is
already emitted (R63, R65, R93). -/
def Obligations.UnsupportedWordEndsRun : Prop :=
  ∀ (s : State) (w : Word) (e : DecodeAbort), s.status = .running → s.ip.toNat % 4 = 0 →
    s.imem[s.ip.toNat / 4]? = some w → decode w = .error e →
      ∃ t, step s = .next t ∧ t.status = .aborted e.kind e.code ∧ t.ip = s.ip ∧ t.regs = s.regs ∧ t.dmem = s.dmem
        ∧ SameLaunch s t ∧ t.trace = if s.debug then s.trace ++ [⟨s.ip, w⟩] else s.trace

/-- From an ended run, and only from one, no step is defined: there the model's one fault, which names how the run ended (R99; 93
U17; log 1), and from every Running state a next state (R67, which the spec marks as derived). -/
def Obligations.EndedRunIsStuck : Prop :=
  ∀ s : State, (s.status ≠ .running ↔ step s = .fault (.runEnded s.status))
    ∧ (s.status = .running → ∃ t, step s = .next t)

/-- The step by decoded instructions is, for every state, the cycle of R63 written straight from its pseudocode over the
Instruction record and the control unit. -/
def Obligations.StepIsControlUnitCycle : Prop := ∀ s : State, step s = cycleByControlUnit s

/-- A step that ends in an error leaves `ip`, registers, data memory and launch parameters as they were, adds at most the trace
event of its fetch, records the kind and value that the unchanged state explains, and the entry point returns exactly that error
(R98, R66). Basis derived: which accesses and fetches fault rests on D6, D7, D8 (log 14 to 16), the form of the error on D14
(log 1). -/
def Obligations.ErrorsArePrecise : Prop :=
  ∀ s t : State, step s = .next t → t.status.isError = true →
    t.ip = s.ip ∧ t.regs = s.regs ∧ t.dmem = s.dmem ∧ SameLaunch s t
      ∧ (t.trace = s.trace ∨ t.trace = s.trace ++ [⟨s.ip, s.iFetch s.ip⟩])
      ∧ StatusExplained t ∧ (∃ e, runResult t.status = some (.err e))
      ∧ (∀ c, t.status = .aborted .unsupportedOpcode c → runResult t.status = some (.err (.unsupportedOpcode c)))
      ∧ (∀ c, t.status = .aborted .unsupportedFunct c → runResult t.status = some (.err (.unsupportedFunct c)))
      ∧ (∀ a, t.status = .faulted .fetchMisaligned a → runResult t.status = some (.err (.fetchMisaligned a)))
      ∧ (∀ a, t.status = .faulted .dataMisaligned a → runResult t.status = some (.err (.dataMisaligned a)))
      ∧ (∀ a, t.status = .faulted .dataOutOfRange a → runResult t.status = some (.err (.dataOutOfRange a)))

/-! ## Whole-machine rules -/

/-- No step changes a launch parameter: instruction memory is read-only, `IMEM_SIZE` and `DMEM_SIZE` stay, the byte order cannot
be switched (R25, R31, R40, R64); so the sizes of an allowed launch stay allowed, which is the premise of
InstructionPointerNeverWraps. -/
def Obligations.LaunchParametersNeverChange : Prop :=
  ∀ s t : State, step s = .next t → SameLaunch s t ∧ (SizesAllowed s → SizesAllowed t)

/-- Only `sb` and `sw` change data memory: any other step leaves the whole list as it was (R22, R34). -/
def Obligations.OnlyStoresChangeMemory : Prop :=
  ∀ s t : State, step s = .next t → t.dmem ≠ s.dmem →
    ∃ rs rt imm16, decode (s.iFetch s.ip) = .ok (.sb rs rt imm16) ∨ decode (s.iFetch s.ip) = .ok (.sw rs rt imm16)

/-- How `ip` moves: a step after which the run goes on adds 4, but for a jump and a taken branch, which keep the upper bits of
`ip` and take the rest from their field (R17, R62). -/
def Obligations.InstructionPointerMoves : Prop :=
  ∀ s t : State, step s = .next t → t.status = .running →
    ∃ i, decode (s.iFetch s.ip) = .ok i ∧
      (t.ip = s.ip + 4#32
      ∨ (∃ addr, i = .j addr ∧ t.ip = (s.ip &&& 0xFF000000#32) ||| zext addr)
      ∨ (∃ rs rt imm16, i = .beq rs rt imm16 ∧ s.reg rs ≠ s.reg rt ∧ t.ip = (s.ip &&& 0xFFFF0000#32) ||| zext imm16)
      ∨ (∃ rs rt imm16, i = .bne rs rt imm16 ∧ s.reg rs = s.reg rt ∧ t.ip = (s.ip &&& 0xFFFF0000#32) ||| zext imm16))

/-- With a program of an allowed size, an instruction runs only at `ip <= 0xFFFFFFF8`, and `ip + 4` never wraps (R18; the spec
marks R18 as derived, the size is its decision D9, log 17). -/
def Obligations.InstructionPointerNeverWraps : Prop :=
  ∀ s t : State, s.imemSize ≤ 0xFFFFFFFC → step s = .next t → t.status = .running →
    s.ip.toNat ≤ 0xFFFFFFF8 ∧ (s.ip + 4#32).toNat = s.ip.toNat + 4

/-- The trace never influences any other state: two states that differ only in the debug flag and in the trace so far step to
states that differ only there (R65). -/
def Obligations.TraceInfluencesNothing : Prop :=
  ∀ s s' : State, quiet s = quiet s' →
    (∀ t, step s = .next t → ∃ t', step s' = .next t' ∧ quiet t = quiet t')
    ∧ (∀ f, step s = .fault f → step s' = .fault f)

/-- A step adds one trace event, of its `ip` and fetched word, exactly when it fetches and the debug flag is set; a halt and a
misaligned fetch add none (R65). Basis derived: the event form is the spec's decision D17 (log 18). -/
def Obligations.TraceRecordsEveryFetch : Prop :=
  ∀ s t : State, step s = .next t →
    (Fetchable s → s.debug = true → t.trace = s.trace ++ [⟨s.ip, s.iFetch s.ip⟩])
    ∧ (¬ (Fetchable s ∧ s.debug = true) → t.trace = s.trace)

/-! ## Invariants -/

/-- The state after reset meets every invariant below. Its values are the spec's where the spec gives one (`ip` 0, status Running)
and the model's choices elsewhere (log 3 to 8, 27). -/
def Obligations.ResetMeetsInvariants : Prop :=
  SizesAllowed State.reset ∧ MemoryCanonical State.reset ∧ StatusExplained State.reset ∧ TraceTrue State.reset
    ∧ State.reset.ip = 0#32 ∧ State.reset.status = .running

/-- Every step keeps data memory canonical and inside `DMEM_SIZE`: no store reaches an address that does not exist (R28 to R30). -/
def Obligations.StepKeepsMemoryCanonical : Prop :=
  ∀ s t : State, MemoryCanonical s → step s = .next t → MemoryCanonical t

/-- Every step leaves a status that its state explains: a run halts only at `ip >= IMEM_SIZE`, aborts only at an unsupported word,
faults only at a misaligned fetch or at a load or store whose address is at fault (R64, R93, R94). -/
def Obligations.StepLeavesExplainedStatus : Prop := ∀ s t : State, step s = .next t → StatusExplained t

/-- Every step keeps the trace true: each event is a word of the program at an address a fetch can read (R65). -/
def Obligations.StepKeepsTraceTrue : Prop := ∀ s t : State, TraceTrue s → step s = .next t → TraceTrue t

/-! ## Launch and run -/

/-- The call of the entry point: an allowed launch starts at `ip` 0, Running, with every launch parameter it was given (R8), no
trace, and every invariant; a launch whose program is larger than 0xFFFFFFFC bytes or whose data memory is larger than 2^32 bytes is
refused (R24, R107). Basis derived: D9, D10, D11 and the inferred `ip` 0 (log 17, 2, 27). -/
def Obligations.LaunchStartsOrRefuses : Prop :=
  ∀ l : Launch,
    (l.wellFormed = true → ∃ s, launch l = .next s ∧ s.ip = 0#32 ∧ s.status = .running
      ∧ (∀ r : RegIx, s.reg r = l.regs0[r.toNat]'r.isLt) ∧ (∀ a : Nat, s.byteAt a = Memory.get l.dmem0 a)
      ∧ s.imem = l.imem ∧ s.dmemSize = l.dmemSize ∧ s.endian = l.endian ∧ s.debug = l.debug ∧ s.trace = []
      ∧ SizesAllowed s ∧ MemoryCanonical s ∧ StatusExplained s ∧ TraceTrue s)
    ∧ (0xFFFFFFFC < 4 * l.imem.length ∨ 2 ^ 32 < l.dmemSize → launch l = .refused .launchRefused)

/-- However many steps a run from a launch takes, its status is explained by its state, its memory is canonical (the model's own
form, log 4), its result is Ok exactly when it halted, at `ip >= IMEM_SIZE`, and it has no result exactly while it is Running.
From every state the run takes no step at 0, takes the machine's steps, the one that ends it included, while the status is
Running, and stays where it ended (R64, R66; log 25). -/
def Obligations.RunResultIsExplained : Prop :=
  (∀ (l : Launch) (s : State) (n : Nat), launch l = .next s →
    let t := runFor n s
    StatusExplained t ∧ MemoryCanonical t
      ∧ (runResult t.status = some .ok ↔ t.status = .halted)
      ∧ (runResult t.status = some .ok → 4 * l.imem.length ≤ t.ip.toNat)
      ∧ (runResult t.status = none ↔ t.status = .running))
  ∧ ∀ (s : State) (n : Nat),
    let t := runFor n s
    runFor 0 s = s
      ∧ (t.status = .running →
        Sys2Proof.core.run n s = .next t ∧ Sys2Proof.core.run (n + 1) s = .next (runFor (n + 1) s))
      ∧ (t.status ≠ .running → ∀ k : Nat, runFor (n + k) s = t)

/-- A program with no branch, jump or data access runs exactly `IMEM_SIZE / 4` instructions, one word after another, and halts
with `ip = IMEM_SIZE` (R64, the source's termination property), whatever its words, registers and data are. -/
def Obligations.StraightLineRunHalts : Prop :=
  ∀ s : State, s.status = .running → s.ip = 0#32 → s.imemSize ≤ 0xFFFFFFFC →
    (∀ w ∈ s.imem, ∃ i, decode w = .ok i ∧ leavesStraightLine i = false) →
      (∀ n : Nat, n ≤ s.imem.length → ∃ u : State, Sys2Proof.core.run n s = .next u ∧ u.status = .running ∧ u.ip.toNat = 4 * n)
      ∧ ∃ t : State, Sys2Proof.core.run (s.imem.length + 1) s = .next t ∧ t.status = .halted ∧ t.ip.toNat = s.imemSize
end

