-- ==== Sys2Proof/Laws/Memory.lean ====
section
/-! SUPPORT. Laws of data memory: read after write, and that a write keeps the canonical form and the range. -/

namespace Sys2Proof.Machine.Memory

theorem get_cell (a : Nat) (v : Byte) (rest : Memory) (q : Nat) :
    get (cell a v rest) q = if v = unlistedByte then get rest q else if a = q then v else get rest q := by
  unfold cell; split <;> rfl

theorem above_cons (n : Nat) (c : Host.Cell) (m : Memory) : above n (c :: m) = true ↔ n ≤ c.1 ∧ above n m = true := by
  simp [above]

theorem above_mono {n k : Nat} (h : n ≤ k) {m : Memory} (hm : above k m = true) : above n m = true := by
  simp only [above, List.all_eq_true, decide_eq_true_eq] at hm ⊢
  exact fun c hc => le_trans h (hm c hc)

/-- Below the least listed address every byte is the unlisted one. -/
theorem get_of_above {n q : Nat} (h : q < n) : ∀ {m : Memory}, above n m = true → get m q = unlistedByte
  | [], _ => rfl
  | c :: rest, hm => by
    rw [above_cons] at hm
    have : c.1 ≠ q := by omega
    simp [get, this, get_of_above h hm.2]

theorem wf_cons (k : Nat) (b : Byte) (m : Memory) :
    wf ((k, b) :: m) = true ↔ b ≠ unlistedByte ∧ above (k + 1) m = true ∧ wf m = true := by
  simp [wf, and_assoc]

/-- Read after write: the written byte at its address, every other byte as before. -/
theorem get_set (a : Nat) (v : Byte) : ∀ (m : Memory), wf m = true → ∀ q : Nat,
    get (set m a v) q = if q = a then v else get m q
  | [], _, q => by
    rw [set, get_cell]
    split <;> rename_i hv
    · subst hv; split <;> rfl
    · simp [get, eq_comm]
  | (k, b) :: rest, hm, q => by
    rw [wf_cons] at hm
    obtain ⟨_, ha, hw⟩ := hm
    rw [set]
    split
    · rename_i hlt
      rw [get_cell]
      by_cases hq : q = a
      · subst hq
        have : k ≠ q := by omega
        by_cases hv : v = unlistedByte <;> simp [hv, get, this, get_of_above (by omega : q < k + 1) ha]
      · simp [hq, Ne.symm hq]
    · split
      · rename_i _ he
        subst he
        rw [get_cell]
        by_cases hq : q = a
        · subst hq
          by_cases hv : v = unlistedByte <;> simp [hv, get_of_above (by omega : q < q + 1) ha]
        · simp [hq, Ne.symm hq, get]
      · rw [get, get_set a v rest hw q, get]
        by_cases hq : q = a
        · have : k ≠ q := by omega
          simp [hq]; omega
        · simp [hq]

theorem above_set {n a : Nat} (h : n ≤ a) (v : Byte) : ∀ {m : Memory}, above n m = true → above n (set m a v) = true
  | [], _ => by rw [set, cell]; split <;> simp [above, h]
  | (k, b) :: rest, hm => by
    rw [above_cons] at hm
    have ih := above_set h v hm.2
    rw [set]
    split
    · rw [cell]; split <;> simp only [above_cons] <;> tauto
    · split
      · rw [cell]; split
        · exact hm.2
        · rw [above_cons]; exact ⟨h, hm.2⟩
      · rw [above_cons]; exact ⟨hm.1, ih⟩

/-- A write keeps the canonical form. -/
theorem wf_set (a : Nat) (v : Byte) : ∀ {m : Memory}, wf m = true → wf (set m a v) = true
  | [], _ => by rw [set, cell]; split <;> simp_all [wf, above]
  | (k, b) :: rest, hm => by
    have hm' := hm
    rw [wf_cons] at hm
    obtain ⟨hb, ha, hw⟩ := hm
    rw [set]
    split
    · rename_i hlt
      rw [cell]
      split
      · exact hm'
      · rw [wf_cons, above_cons]
        exact ⟨‹_›, ⟨by change a + 1 ≤ k; omega, above_mono (by omega) ha⟩, hm'⟩
    · split
      · rename_i _ he
        subst he
        rw [cell]
        split
        · exact hw
        · rw [wf_cons]; exact ⟨‹_›, ha, hw⟩
      · rw [wf_cons]
        exact ⟨hb, above_set (by omega) v ha, wf_set a v hw⟩

/-- A write below the bound keeps everything below it. -/
theorem below_set {n a : Nat} (h : a < n) (v : Byte) : ∀ {m : Memory}, below n m = true → below n (set m a v) = true
  | [], _ => by rw [set, cell]; split <;> simp [below, h]
  | (k, b) :: rest, hm => by
    have hm' := hm
    simp only [below, List.all_cons, Bool.and_eq_true, decide_eq_true_eq] at hm
    have ih := below_set h v (m := rest) hm.2
    rw [set]
    split
    · rw [cell]; split
      · exact hm'
      · simpa [below, h] using hm
    · split
      · rw [cell]; split
        · exact hm.2
        · simpa [below, h] using hm.2
      · simp only [below, List.all_cons, Bool.and_eq_true, decide_eq_true_eq]
        exact ⟨hm.1, ih⟩

end Sys2Proof.Machine.Memory
end

