-- ==== Sys2Proof/Laws/State.lean ====
section
/-! SUPPORT. One lemma per field of State per update, so that no proof unfolds a record update. -/

namespace Sys2Proof.Machine

section Updates

variable (s : State) (r : RegIx) (v a : Word) (st : RunStatus) (n : Nat) (b : Byte) (w : Word)

@[simp] theorem setReg_ip : (s.setReg r v).ip = s.ip := rfl

@[simp] theorem setReg_dmem : (s.setReg r v).dmem = s.dmem := rfl

@[simp] theorem setReg_status : (s.setReg r v).status = s.status := rfl

@[simp] theorem setReg_imem : (s.setReg r v).imem = s.imem := rfl

@[simp] theorem setReg_dmemSize : (s.setReg r v).dmemSize = s.dmemSize := rfl

@[simp] theorem setReg_endian : (s.setReg r v).endian = s.endian := rfl

@[simp] theorem setReg_debug : (s.setReg r v).debug = s.debug := rfl

@[simp] theorem setReg_trace : (s.setReg r v).trace = s.trace := rfl

@[simp] theorem setIp_ip : (s.setIp a).ip = a := rfl

@[simp] theorem setIp_regs : (s.setIp a).regs = s.regs := rfl

@[simp] theorem setIp_dmem : (s.setIp a).dmem = s.dmem := rfl

@[simp] theorem setIp_status : (s.setIp a).status = s.status := rfl

@[simp] theorem setIp_imem : (s.setIp a).imem = s.imem := rfl

@[simp] theorem setIp_dmemSize : (s.setIp a).dmemSize = s.dmemSize := rfl

@[simp] theorem setIp_endian : (s.setIp a).endian = s.endian := rfl

@[simp] theorem setIp_debug : (s.setIp a).debug = s.debug := rfl

@[simp] theorem setIp_trace : (s.setIp a).trace = s.trace := rfl

@[simp] theorem setByteAt_ip : (s.setByteAt n b).ip = s.ip := rfl

@[simp] theorem setByteAt_regs : (s.setByteAt n b).regs = s.regs := rfl

@[simp] theorem setByteAt_dmem : (s.setByteAt n b).dmem = Memory.set s.dmem n b := rfl

@[simp] theorem setByteAt_status : (s.setByteAt n b).status = s.status := rfl

@[simp] theorem setByteAt_imem : (s.setByteAt n b).imem = s.imem := rfl

@[simp] theorem setByteAt_dmemSize : (s.setByteAt n b).dmemSize = s.dmemSize := rfl

@[simp] theorem setByteAt_endian : (s.setByteAt n b).endian = s.endian := rfl

@[simp] theorem setByteAt_debug : (s.setByteAt n b).debug = s.debug := rfl

@[simp] theorem setByteAt_trace : (s.setByteAt n b).trace = s.trace := rfl

@[simp] theorem endRun_ip : (s.endRun st).ip = s.ip := rfl

@[simp] theorem endRun_regs : (s.endRun st).regs = s.regs := rfl

@[simp] theorem endRun_dmem : (s.endRun st).dmem = s.dmem := rfl

@[simp] theorem endRun_status : (s.endRun st).status = st := rfl

@[simp] theorem endRun_imem : (s.endRun st).imem = s.imem := rfl

@[simp] theorem endRun_dmemSize : (s.endRun st).dmemSize = s.dmemSize := rfl

@[simp] theorem endRun_endian : (s.endRun st).endian = s.endian := rfl

@[simp] theorem endRun_debug : (s.endRun st).debug = s.debug := rfl

@[simp] theorem endRun_trace : (s.endRun st).trace = s.trace := rfl

@[simp] theorem setWordAt_ip : (s.setWordAt n w).ip = s.ip := rfl

@[simp] theorem setWordAt_regs : (s.setWordAt n w).regs = s.regs := rfl

@[simp] theorem setWordAt_status : (s.setWordAt n w).status = s.status := rfl

@[simp] theorem setWordAt_imem : (s.setWordAt n w).imem = s.imem := rfl

@[simp] theorem setWordAt_dmemSize : (s.setWordAt n w).dmemSize = s.dmemSize := rfl

@[simp] theorem setWordAt_endian : (s.setWordAt n w).endian = s.endian := rfl

@[simp] theorem setWordAt_debug : (s.setWordAt n w).debug = s.debug := rfl

@[simp] theorem setWordAt_trace : (s.setWordAt n w).trace = s.trace := rfl

@[simp] theorem emitTrace_ip : (s.emitTrace w).ip = s.ip := by unfold State.emitTrace; split <;> rfl

@[simp] theorem emitTrace_regs : (s.emitTrace w).regs = s.regs := by unfold State.emitTrace; split <;> rfl

@[simp] theorem emitTrace_dmem : (s.emitTrace w).dmem = s.dmem := by unfold State.emitTrace; split <;> rfl

@[simp] theorem emitTrace_status : (s.emitTrace w).status = s.status := by unfold State.emitTrace; split <;> rfl

@[simp] theorem emitTrace_imem : (s.emitTrace w).imem = s.imem := by unfold State.emitTrace; split <;> rfl

@[simp] theorem emitTrace_dmemSize : (s.emitTrace w).dmemSize = s.dmemSize := by unfold State.emitTrace; split <;> rfl

@[simp] theorem emitTrace_endian : (s.emitTrace w).endian = s.endian := by unfold State.emitTrace; split <;> rfl

@[simp] theorem emitTrace_debug : (s.emitTrace w).debug = s.debug := by unfold State.emitTrace; split <;> rfl

theorem emitTrace_trace : (s.emitTrace w).trace = if s.debug then s.trace ++ [⟨s.ip, w⟩] else s.trace := by
  unfold State.emitTrace; split <;> rfl

@[simp] theorem setReg_byteAt : (s.setReg r v).byteAt n = s.byteAt n := rfl

@[simp] theorem setReg_imemSize : (s.setReg r v).imemSize = s.imemSize := rfl

@[simp] theorem setReg_iFetch : (s.setReg r v).iFetch a = s.iFetch a := rfl

@[simp] theorem setIp_reg : (s.setIp a).reg r = s.reg r := rfl

@[simp] theorem setIp_byteAt : (s.setIp a).byteAt n = s.byteAt n := rfl

@[simp] theorem setIp_imemSize : (s.setIp a).imemSize = s.imemSize := rfl

@[simp] theorem setIp_iFetch : (s.setIp a).iFetch a = s.iFetch a := rfl

@[simp] theorem setByteAt_reg : (s.setByteAt n b).reg r = s.reg r := rfl

@[simp] theorem setByteAt_imemSize : (s.setByteAt n b).imemSize = s.imemSize := rfl

@[simp] theorem setByteAt_iFetch : (s.setByteAt n b).iFetch a = s.iFetch a := rfl

@[simp] theorem endRun_reg : (s.endRun st).reg r = s.reg r := rfl

@[simp] theorem endRun_byteAt : (s.endRun st).byteAt n = s.byteAt n := rfl

@[simp] theorem endRun_imemSize : (s.endRun st).imemSize = s.imemSize := rfl

@[simp] theorem endRun_iFetch : (s.endRun st).iFetch a = s.iFetch a := rfl

@[simp] theorem setWordAt_reg : (s.setWordAt n w).reg r = s.reg r := rfl

@[simp] theorem setWordAt_imemSize : (s.setWordAt n w).imemSize = s.imemSize := rfl

@[simp] theorem setWordAt_iFetch : (s.setWordAt n w).iFetch a = s.iFetch a := rfl

@[simp] theorem emitTrace_reg : (s.emitTrace w).reg r = s.reg r := by simp [State.reg]

@[simp] theorem emitTrace_byteAt : (s.emitTrace w).byteAt n = s.byteAt n := by simp [State.byteAt]

@[simp] theorem emitTrace_imemSize : (s.emitTrace w).imemSize = s.imemSize := by simp [State.imemSize]

@[simp] theorem emitTrace_iFetch : (s.emitTrace w).iFetch a = s.iFetch a := by simp [State.iFetch]

end Updates

/-! ## Registers: every register is ordinary (spec/10_state.md R14) -/

@[simp] theorem setReg_reg_self (s : State) (r : RegIx) (v : Word) : (s.setReg r v).reg r = v := by
  simp [State.setReg, State.reg]

theorem setReg_reg_ne (s : State) {r q : RegIx} (v : Word) (h : q ≠ r) : (s.setReg r v).reg q = s.reg q := by
  have : r.toNat ≠ q.toNat := fun e => h (BitVec.eq_of_toNat_eq e.symm)
  simp [State.setReg, State.reg, this]

theorem setReg_reg (s : State) (r q : RegIx) (v : Word) : (s.setReg r v).reg q = if q = r then v else s.reg q := by
  split
  · subst q; exact setReg_reg_self s r v
  · exact setReg_reg_ne s v ‹_›

end Sys2Proof.Machine
end

