-- ==== Sys2Proof/Laws/Ops.lean ====
section
/-! SUPPORT. What each memory operation and stage can do, said once: provers cite these and do not unfold the operation. -/

namespace Sys2Proof.Machine

/-! ## Bytes of a word -/

/-- Splitting a word into bytes and joining them again, in either byte order (spec/20_memory.md R30). -/
theorem bytesToWord_wordToBytes (e : Endian) (v : Word) :
    bytesToWord e (wordToBytes e v).1 (wordToBytes e v).2.1 (wordToBytes e v).2.2.1 (wordToBytes e v).2.2.2 = v := by
  have key : (v.extractLsb' 24 8 ++ v.extractLsb' 16 8 ++ v.extractLsb' 8 8 ++ v.extractLsb' 0 8 : Word) = v := by
    apply BitVec.eq_of_getLsbD_eq
    intro i hi
    simp only [BitVec.getLsbD_append, BitVec.getLsbD_extractLsb', Nat.sub_sub]
    split_ifs
    all_goals (rw [decide_eq_true (by omega), Bool.true_and]; congr 1; omega)
  cases e <;> exact key

/-! ## Reads and writes of a byte (the canonical form is assumed where a listed address matters) -/

theorem setByteAt_byteAt {s : State} (h : Memory.wf s.dmem = true) (a : Nat) (v : Byte) (q : Nat) :
    (s.setByteAt a v).byteAt q = if q = a then v else s.byteAt q := Memory.get_set a v s.dmem h q

theorem setByteAt_wf {s : State} (h : Memory.wf s.dmem = true) (a : Nat) (v : Byte) :
    Memory.wf (s.setByteAt a v).dmem = true := Memory.wf_set a v h

theorem setByteAt_below {s : State} {a : Nat} (h : Memory.below s.dmemSize s.dmem = true) (ha : a < s.dmemSize) (v : Byte) :
    Memory.below s.dmemSize (s.setByteAt a v).dmem = true := Memory.below_set ha v h

/-- The bytes after a word is stored: its four bytes in the order of `ENDIAN`, every other byte as before. -/
theorem setWordAt_byteAt {s : State} (h : Memory.wf s.dmem = true) (a : Nat) (v : Word) (q : Nat) :
    (s.setWordAt a v).byteAt q =
      if q = a then (wordToBytes s.endian v).1 else if q = a + 1 then (wordToBytes s.endian v).2.1
      else if q = a + 2 then (wordToBytes s.endian v).2.2.1 else if q = a + 3 then (wordToBytes s.endian v).2.2.2
      else s.byteAt q := by
  unfold State.setWordAt
  have h1 := setByteAt_wf h a (wordToBytes s.endian v).1
  have h2 := setByteAt_wf h1 (a + 1) (wordToBytes s.endian v).2.1
  have h3 := setByteAt_wf h2 (a + 2) (wordToBytes s.endian v).2.2.1
  dsimp only
  rw [setByteAt_byteAt h3, setByteAt_byteAt h2, setByteAt_byteAt h1, setByteAt_byteAt h]
  split_ifs <;> first | rfl | omega

theorem setWordAt_wf {s : State} (h : Memory.wf s.dmem = true) (a : Nat) (v : Word) :
    Memory.wf (s.setWordAt a v).dmem = true :=
  setByteAt_wf (setByteAt_wf (setByteAt_wf (setByteAt_wf h _ _) _ _) _ _) _ _

theorem setWordAt_below {s : State} {a : Nat} (h : Memory.below s.dmemSize s.dmem = true) (ha : a + 3 < s.dmemSize) (v : Word) :
    Memory.below s.dmemSize (s.setWordAt a v).dmem = true := by
  have h1 := setByteAt_below h (show a < s.dmemSize by omega) (wordToBytes s.endian v).1
  have h2 := Memory.below_set (show a + 1 < s.dmemSize by omega) (wordToBytes s.endian v).2.1 h1
  have h3 := Memory.below_set (show a + 2 < s.dmemSize by omega) (wordToBytes s.endian v).2.2.1 h2
  exact Memory.below_set ha (wordToBytes s.endian v).2.2.2 h3

/-! ## Access checks (R29, R30) -/

theorem byteFault_none {s : State} {a : Word} : byteFault s a = none ↔ a.toNat < s.dmemSize := by
  unfold byteFault; split <;> simp <;> omega

theorem byteFault_some {s : State} {a : Word} {f : DataFault} :
    byteFault s a = some f ↔ s.dmemSize ≤ a.toNat ∧ f = ⟨.dataOutOfRange, a⟩ := by
  unfold byteFault; split <;> simp_all [eq_comm]

theorem wordFault_none {s : State} {a : Word} : wordFault s a = none ↔ a.toNat % 4 = 0 ∧ a.toNat + 3 < s.dmemSize := by
  unfold wordFault; split_ifs <;> simp_all

theorem wordFault_some {s : State} {a : Word} {f : DataFault} :
    wordFault s a = some f ↔ (a.toNat % 4 ≠ 0 ∧ f = ⟨.dataMisaligned, a⟩)
      ∨ (a.toNat % 4 = 0 ∧ s.dmemSize ≤ a.toNat + 3 ∧ f = ⟨.dataOutOfRange, a⟩) := by
  unfold wordFault; split_ifs <;> simp_all [eq_comm]

/-! ## The memory access stage of each kind of row (spec/40_datapath.md R60) -/

/-- A row without a data access changes nothing and reads no value. -/
theorem memStage_none {C : ControlBits} (hw : C.memWrite = false) (hr : C.memRead = false) (F : Fields) (a : Word) (s : State) :
    memStage C F a s = .ok (s, none) := by simp [memStage, memWriteStage, memReadStage, hw, hr]

theorem memStage_lb (F : Fields) (a : Word) (s : State) :
    memStage rowLb F a s = match byteFault s a with
      | some f => .error f
      | none => .ok (s, some (zext (s.byteAt a.toNat))) := by
  simp only [memStage, memWriteStage, memReadStage, rowLb, rowZero, readByte, Bool.false_eq_true, if_true, if_false]
  cases byteFault s a <;> rfl

theorem memStage_lw (F : Fields) (a : Word) (s : State) :
    memStage rowLw F a s = match wordFault s a with
      | some f => .error f
      | none => .ok (s, some (bytesToWord s.endian (s.byteAt a.toNat) (s.byteAt (a.toNat + 1)) (s.byteAt (a.toNat + 2))
          (s.byteAt (a.toNat + 3)))) := by
  simp only [memStage, memWriteStage, memReadStage, rowLw, rowZero, readWord, Bool.false_eq_true, if_true, if_false]
  cases wordFault s a <;> rfl

theorem memStage_sb (F : Fields) (a : Word) (s : State) :
    memStage rowSb F a s = match byteFault s a with
      | some f => .error f
      | none => .ok (s.setByteAt a.toNat (storedByte F s), none) := by
  simp only [memStage, memWriteStage, memReadStage, rowSb, rowZero, writeByte, Bool.false_eq_true, if_true, if_false]
  cases byteFault s a <;> rfl

theorem memStage_sw (F : Fields) (a : Word) (s : State) :
    memStage rowSw F a s = match wordFault s a with
      | some f => .error f
      | none => .ok (s.setWordAt a.toNat (storeOperand F s), none) := by
  simp only [memStage, memWriteStage, memReadStage, rowSw, rowZero, writeWord, Bool.false_eq_true, if_true, if_false]
  cases wordFault s a <;> rfl

end Sys2Proof.Machine
end

