-- ==== Sys2Proof/Laws/Encoding.lean ====
section
/-! SUPPORT. The bits of an encoded word, the record the decoder extracts from it, and the word rebuilt from its fields. -/

namespace Sys2Proof

open Machine

/-! ## Bits of the three formats -/

theorem encodeR_bit (funct : Funct) (rs rt rd : RegIx) (ign : Ignored) (i : Nat) :
    (encodeR funct rs rt rd ign).getLsbD i =
      if i < 6 then funct.getLsbD i else if i < 11 then ign.getLsbD (i - 6) else if i < 16 then rd.getLsbD (i - 11)
      else if i < 21 then rt.getLsbD (i - 16) else if i < 26 then rs.getLsbD (i - 21) else false := by
  change BitVec.getLsbD (w := 6 + 5 + 5 + 5 + 5 + 6) (0x00#6 ++ rs ++ rt ++ rd ++ ign ++ funct) i = _
  simp only [BitVec.getLsbD_append, Nat.sub_sub]
  split_ifs <;> first | rfl | omega | simp

theorem encodeI_bit (opcode : Opcode) (rs rt : RegIx) (imm16 : Imm16) (i : Nat) :
    (encodeI opcode rs rt imm16).getLsbD i =
      if i < 16 then imm16.getLsbD i else if i < 21 then rt.getLsbD (i - 16) else if i < 26 then rs.getLsbD (i - 21)
      else opcode.getLsbD (i - 26) := by
  change BitVec.getLsbD (w := 6 + 5 + 5 + 16) (opcode ++ rs ++ rt ++ imm16) i = _
  simp only [BitVec.getLsbD_append, Nat.sub_sub]
  split_ifs <;> first | rfl | omega

theorem encodeJ_bit (opcode : Opcode) (addr : Addr26) (i : Nat) :
    (encodeJ opcode addr).getLsbD i = if i < 26 then addr.getLsbD i else opcode.getLsbD (i - 26) := by
  change BitVec.getLsbD (w := 6 + 26) (opcode ++ addr) i = _
  simp only [BitVec.getLsbD_append]

/-! ## The record of an encoded word (spec/30_encoding.md R44) -/

theorem decodeFields_encodeR (funct : Funct) (rs rt rd : RegIx) (ign : Ignored) :
    decodeFields (encodeR funct rs rt rd ign) = rFields funct rs rt rd ign := by
  simp only [decodeFields, rFields, Fields.mk.injEq]
  refine ⟨?_, ?_, ?_, ?_, ?_, ?_, ?_⟩ <;> ext i hi <;> simp only [BitVec.getElem_extractLsb', encodeR_bit]
  case refine_6 =>
    rw [← BitVec.getLsbD_eq_getElem]
    simp only [BitVec.getLsbD_append, Nat.sub_sub, Nat.zero_add]
    split_ifs <;> first | rfl | omega
  case refine_7 =>
    rw [← BitVec.getLsbD_eq_getElem]
    simp only [BitVec.getLsbD_append, Nat.sub_sub, Nat.zero_add]
    split_ifs <;> first | rfl | omega
  all_goals split_ifs <;> first | omega | simp [hi]

theorem decodeFields_encodeI (opcode : Opcode) (rs rt : RegIx) (imm16 : Imm16) :
    decodeFields (encodeI opcode rs rt imm16) = iFields opcode rs rt imm16 := by
  simp only [decodeFields, iFields, Fields.mk.injEq]
  refine ⟨?_, ?_, ?_, ?_, ?_, ?_, ?_⟩ <;> ext i hi <;> simp only [BitVec.getElem_extractLsb', encodeI_bit]
  case refine_7 =>
    rw [← BitVec.getLsbD_eq_getElem]
    simp only [BitVec.getLsbD_append, Nat.sub_sub, Nat.zero_add]
    split_ifs <;> first | rfl | omega
  all_goals split_ifs <;> first | omega | simp [hi]

theorem decodeFields_encodeJ (opcode : Opcode) (addr : Addr26) :
    decodeFields (encodeJ opcode addr) = jFields opcode addr := by
  simp only [decodeFields, jFields, Fields.mk.injEq]
  refine ⟨?_, ?_, ?_, ?_, ?_, ?_, ?_⟩ <;> ext i hi <;> simp only [BitVec.getElem_extractLsb', encodeJ_bit] <;>
    split_ifs <;> first | omega | simp [hi]

theorem ignoredBits_encodeR (funct : Funct) (rs rt rd : RegIx) (ign : Ignored) :
    ignoredBits (encodeR funct rs rt rd ign) = ign := by
  unfold ignoredBits
  ext i hi
  simp only [BitVec.getElem_extractLsb', encodeR_bit]
  split_ifs <;> first | omega | simp [hi]

/-! ## The word rebuilt from its fields -/

theorem encodeR_decodeFields (w : Word) (h : (decodeFields w).opcode = 0x00#6) :
    encodeR (decodeFields w).funct (decodeFields w).rs (decodeFields w).rt (decodeFields w).rd (ignoredBits w) = w := by
  apply BitVec.eq_of_getLsbD_eq
  intro i hi
  have h0 : ∀ j, (w.extractLsb' 26 6).getLsbD j = false := by
    intro j; rw [show w.extractLsb' 26 6 = 0x00#6 from h]; simp
  rw [encodeR_bit]
  simp only [decodeFields, ignoredBits, BitVec.getLsbD_extractLsb'] at *
  split_ifs
  all_goals first
    | (rw [decide_eq_true (by omega), Bool.true_and]; congr 1; omega)
    | (have := h0 (i - 26); rw [decide_eq_true (by omega), Bool.true_and] at this; rw [← this]; congr 1; omega)

theorem encodeI_decodeFields (w : Word) :
    encodeI (decodeFields w).opcode (decodeFields w).rs (decodeFields w).rt (decodeFields w).imm16 = w := by
  apply BitVec.eq_of_getLsbD_eq
  intro i hi
  rw [encodeI_bit]
  simp only [decodeFields, BitVec.getLsbD_extractLsb']
  split_ifs
  all_goals (rw [decide_eq_true (by omega), Bool.true_and]; congr 1; omega)

theorem encodeJ_decodeFields (w : Word) : encodeJ (decodeFields w).opcode (decodeFields w).addr = w := by
  apply BitVec.eq_of_getLsbD_eq
  intro i hi
  rw [encodeJ_bit]
  simp only [decodeFields, BitVec.getLsbD_extractLsb']
  split_ifs
  all_goals (rw [decide_eq_true (by omega), Bool.true_and]; congr 1; omega)

end Sys2Proof
end

