-- ==== Sys2Proof/Laws/PerInstr.lean ====
section
/-! SUPPORT. Facts about every instruction as syntax, one lemma per constructor: the decoder extracts from an instruction's word
the record its meaning runs with, ignored bits included. -/

namespace Sys2Proof.Laws.FieldsOfEncode

open Sys2Proof.Machine

/-- The record of the encoded word is the record the meaning uses; the control unit gives that record the instruction's row. -/
def Statement (i : Instr) : Prop :=
  decodeFields (encode i) = recordOf i ∧ derive (recordOf i).opcode (recordOf i).funct = .ok (rowOf i)

theorem add (rs rt rd : RegIx) (ign : Ignored) : Statement (.add rs rt rd ign) := ⟨decodeFields_encodeR _ _ _ _ _, rfl⟩

theorem addu (rs rt rd : RegIx) (ign : Ignored) : Statement (.addu rs rt rd ign) := ⟨decodeFields_encodeR _ _ _ _ _, rfl⟩

theorem sub (rs rt rd : RegIx) (ign : Ignored) : Statement (.sub rs rt rd ign) := ⟨decodeFields_encodeR _ _ _ _ _, rfl⟩

theorem subu (rs rt rd : RegIx) (ign : Ignored) : Statement (.subu rs rt rd ign) := ⟨decodeFields_encodeR _ _ _ _ _, rfl⟩

theorem and (rs rt rd : RegIx) (ign : Ignored) : Statement (.and rs rt rd ign) := ⟨decodeFields_encodeR _ _ _ _ _, rfl⟩

theorem or (rs rt rd : RegIx) (ign : Ignored) : Statement (.or rs rt rd ign) := ⟨decodeFields_encodeR _ _ _ _ _, rfl⟩

theorem xor (rs rt rd : RegIx) (ign : Ignored) : Statement (.xor rs rt rd ign) := ⟨decodeFields_encodeR _ _ _ _ _, rfl⟩

theorem nor (rs rt rd : RegIx) (ign : Ignored) : Statement (.nor rs rt rd ign) := ⟨decodeFields_encodeR _ _ _ _ _, rfl⟩

theorem slt (rs rt rd : RegIx) (ign : Ignored) : Statement (.slt rs rt rd ign) := ⟨decodeFields_encodeR _ _ _ _ _, rfl⟩

theorem sltu (rs rt rd : RegIx) (ign : Ignored) : Statement (.sltu rs rt rd ign) := ⟨decodeFields_encodeR _ _ _ _ _, rfl⟩

theorem j (addr : Addr26) : Statement (.j addr) := ⟨decodeFields_encodeJ _ _, rfl⟩

theorem beq (rs rt : RegIx) (imm16 : Imm16) : Statement (.beq rs rt imm16) := ⟨decodeFields_encodeI _ _ _ _, rfl⟩

theorem bne (rs rt : RegIx) (imm16 : Imm16) : Statement (.bne rs rt imm16) := ⟨decodeFields_encodeI _ _ _ _, rfl⟩

theorem addi (rs rt : RegIx) (imm16 : Imm16) : Statement (.addi rs rt imm16) := ⟨decodeFields_encodeI _ _ _ _, rfl⟩

theorem addiu (rs rt : RegIx) (imm16 : Imm16) : Statement (.addiu rs rt imm16) := ⟨decodeFields_encodeI _ _ _ _, rfl⟩

theorem slti (rs rt : RegIx) (imm16 : Imm16) : Statement (.slti rs rt imm16) := ⟨decodeFields_encodeI _ _ _ _, rfl⟩

theorem sltiu (rs rt : RegIx) (imm16 : Imm16) : Statement (.sltiu rs rt imm16) := ⟨decodeFields_encodeI _ _ _ _, rfl⟩

theorem andi (rs rt : RegIx) (imm16 : Imm16) : Statement (.andi rs rt imm16) := ⟨decodeFields_encodeI _ _ _ _, rfl⟩

theorem ori (rs rt : RegIx) (imm16 : Imm16) : Statement (.ori rs rt imm16) := ⟨decodeFields_encodeI _ _ _ _, rfl⟩

theorem lui (rs rt : RegIx) (imm16 : Imm16) : Statement (.lui rs rt imm16) := ⟨decodeFields_encodeI _ _ _ _, rfl⟩

theorem lb (rs rt : RegIx) (imm16 : Imm16) : Statement (.lb rs rt imm16) := ⟨decodeFields_encodeI _ _ _ _, rfl⟩

theorem lw (rs rt : RegIx) (imm16 : Imm16) : Statement (.lw rs rt imm16) := ⟨decodeFields_encodeI _ _ _ _, rfl⟩

theorem sb (rs rt : RegIx) (imm16 : Imm16) : Statement (.sb rs rt imm16) := ⟨decodeFields_encodeI _ _ _ _, rfl⟩

theorem sw (rs rt : RegIx) (imm16 : Imm16) : Statement (.sw rs rt imm16) := ⟨decodeFields_encodeI _ _ _ _, rfl⟩

end Sys2Proof.Laws.FieldsOfEncode
end

