-- ==== Sys2Proof/Laws/Dispatch.lean ====
section
/-! SUPPORT. What `exec` can do, said once: it is the datapath with the instruction's row and record, and the datapath answers a next
state that either only records a data fault or comes from the three stages. -/

namespace Sys2Proof.Machine

/-- Every instruction is the datapath with its row of the signal table and its record (spec/40_datapath.md R63). -/
theorem exec_eq_datapath (i : Instr) (s : State) : exec i s = datapath (rowOf i) (recordOf i) s := by
  cases i <;> rfl

/-- The inversion lemma of the datapath: a data fault, which changes only `status`, or the stages in order. -/
theorem datapath_cases (C : ControlBits) (F : Fields) (s : State) :
    (∃ f, memStage C F (aluStage C F s).1 s = .error f ∧ datapath C F s = .next (s.endRun (.faulted f.kind f.addr)))
    ∨ ∃ s1 m, memStage C F (aluStage C F s).1 s = .ok (s1, m)
      ∧ datapath C F s = .next (pcUpdate C F (aluStage C F s).2 (writeBack C F (aluStage C F s).1 m s1)) := by
  unfold datapath
  cases memStage C F (aluStage C F s).1 s with
  | error f => exact .inl ⟨f, rfl, rfl⟩
  | ok p => exact .inr ⟨p.1, p.2, rfl, rfl⟩

/-- A row without a data access answers the write-back and program-counter update of its ALU result. -/
theorem datapath_no_access {C : ControlBits} (hw : C.memWrite = false) (hr : C.memRead = false) (F : Fields) (s : State) :
    datapath C F s = .next (pcUpdate C F (aluStage C F s).2 (writeBack C F (aluStage C F s).1 none s)) := by
  unfold datapath; rw [memStage_none hw hr]

/-- `exec` never faults or refuses: every instruction answers a next state. -/
theorem exec_next (i : Instr) (s : State) : ∃ t, exec i s = .next t := by
  rw [exec_eq_datapath]
  obtain ⟨f, _, h⟩ | ⟨s1, m, _, h⟩ := datapath_cases (rowOf i) (recordOf i) s <;> exact ⟨_, h⟩

/-! ## What each stage leaves alone -/

@[simp] theorem pcUpdate_ip (C : ControlBits) (F : Fields) (z : Bool) (s : State) : (pcUpdate C F z s).ip = nextIp C F z s.ip := rfl

@[simp] theorem pcUpdate_regs (C : ControlBits) (F : Fields) (z : Bool) (s : State) : (pcUpdate C F z s).regs = s.regs := rfl

@[simp] theorem pcUpdate_dmem (C : ControlBits) (F : Fields) (z : Bool) (s : State) : (pcUpdate C F z s).dmem = s.dmem := rfl

@[simp] theorem pcUpdate_status (C : ControlBits) (F : Fields) (z : Bool) (s : State) : (pcUpdate C F z s).status = s.status := rfl

@[simp] theorem pcUpdate_trace (C : ControlBits) (F : Fields) (z : Bool) (s : State) : (pcUpdate C F z s).trace = s.trace := rfl

/-- Write-back changes at most the destination register. -/
theorem writeBack_cases (C : ControlBits) (F : Fields) (r : Word) (m : Option Word) (s : State) :
    writeBack C F r m s = s ∨ ∃ v, C.regWrite = true ∧ writeBack C F r m s = s.setReg (destination C F) v := by
  unfold writeBack
  split
  · split
    · exact .inr ⟨_, ‹_›, rfl⟩
    · exact .inl rfl
  · exact .inl rfl

end Sys2Proof.Machine
end

