-- ==== Sys2Proof/Laws/Step.lean ====
section
/-! SUPPORT. What `step` can do, said once, and that a placed word is the one the next step runs. -/

namespace Sys2Proof.Machine

/-- The inversion lemma of `step`: stuck, halted, a misaligned fetch, an abort, or the decoded instruction (spec/60_exceptions.md
R96). -/
theorem step_cases (s : State) :
    (s.status ≠ .running ∧ step s = .fault (.runEnded s.status))
    ∨ (s.status = .running ∧ s.imemSize ≤ s.ip.toNat ∧ step s = .next (s.endRun .halted))
    ∨ (s.status = .running ∧ s.ip.toNat < s.imemSize ∧ s.ip.toNat % 4 ≠ 0
      ∧ step s = .next (s.endRun (.faulted .fetchMisaligned s.ip)))
    ∨ (∃ e, s.status = .running ∧ s.ip.toNat < s.imemSize ∧ s.ip.toNat % 4 = 0 ∧ decode (s.iFetch s.ip) = .error e
      ∧ step s = .next ((s.emitTrace (s.iFetch s.ip)).endRun (.aborted e.kind e.code)))
    ∨ (∃ i, s.status = .running ∧ s.ip.toNat < s.imemSize ∧ s.ip.toNat % 4 = 0 ∧ decode (s.iFetch s.ip) = .ok i
      ∧ step s = exec i (s.emitTrace (s.iFetch s.ip))) := by
  by_cases h1 : s.status = .running
  · by_cases h2 : s.imemSize ≤ s.ip.toNat
    · exact .inr (.inl ⟨h1, h2, by simp [step, fetchDecode, h1, h2]⟩)
    · by_cases h3 : s.ip.toNat % 4 = 0
      · cases h4 : decode (s.iFetch s.ip) with
        | error e => exact .inr (.inr (.inr (.inl ⟨e, h1, by omega, h3, rfl, by simp [step, fetchDecode, h1, h2, h3, h4]⟩)))
        | ok i => exact .inr (.inr (.inr (.inr ⟨i, h1, by omega, h3, rfl, by simp [step, fetchDecode, h1, h2, h3, h4]⟩)))
      · exact .inr (.inr (.inl ⟨h1, by omega, h3, by simp [step, fetchDecode, h1, h2, h3]⟩))
  · exact .inl ⟨h1, by simp [step, fetchDecode, h1]⟩

/-- From a Running state the machine always steps (spec/40_datapath.md R67). -/
theorem step_running_next {s : State} (h : s.status = .running) : ∃ t, step s = .next t := by
  obtain ⟨hn, _⟩ | ⟨_, _, hs⟩ | ⟨_, _, _, hs⟩ | ⟨_, _, _, _, _, hs⟩ | ⟨i, _, _, _, _, hs⟩ := step_cases s
  · exact absurd h hn
  · exact ⟨_, hs⟩
  · exact ⟨_, hs⟩
  · exact ⟨_, hs⟩
  · rw [hs]; exact exec_next i _

/-! ## The host's run -/

theorem core_run_zero (s : State) : Sys2Proof.core.run 0 s = .next s := rfl

theorem core_run_succ_next {s t : State} (n : Nat) (h : step s = .next t) : Sys2Proof.core.run (n + 1) s = Sys2Proof.core.run n t := by
  have : Sys2Proof.core.step s = Host.Outcome.next t := h
  simp only [Host.Core.run, this]

theorem core_run_add_next (k : Nat) : ∀ (n : Nat) (s t : State), Sys2Proof.core.run n s = .next t →
    Sys2Proof.core.run (n + k) s = Sys2Proof.core.run k t
  | 0, s, t, h => by cases h; rw [Nat.zero_add]
  | n + 1, s, t, h => by
    cases hs : step s with
    | next u =>
      rw [core_run_succ_next n hs] at h
      rw [Nat.add_right_comm, core_run_succ_next (n + k) hs]
      exact core_run_add_next k n u t h
    | fault f =>
      have hc : Sys2Proof.core.step s = Host.Outcome.fault f := hs
      simp only [Host.Core.run, hc] at h; cases h
    | refused r =>
      have hc : Sys2Proof.core.step s = Host.Outcome.refused r := hs
      simp only [Host.Core.run, hc] at h; cases h

/-! ## Placing a word -/

theorem placeWord_getD (w : Word) : ∀ (n : Nat) (ws : List Word), (placeWord ws n w).getD n 0#32 = w
  | 0, [] => rfl
  | 0, _ :: _ => rfl
  | n + 1, [] => by simpa [placeWord] using placeWord_getD w n []
  | n + 1, _ :: rest => by simpa [placeWord] using placeWord_getD w n rest

theorem placeWord_length (w : Word) : ∀ (n : Nat) (ws : List Word), n < (placeWord ws n w).length
  | 0, [] => by simp [placeWord]
  | 0, _ :: _ => by simp [placeWord]
  | n + 1, [] => by simpa [placeWord] using placeWord_length w n []
  | n + 1, _ :: rest => by simpa [placeWord] using placeWord_length w n rest

theorem fetchableIp_spec (ip : Word) : (fetchableIp ip).toNat % 4 = 0 ∧ (fetchableIp ip).toNat + 4 ≤ imemSizeMax := by
  unfold fetchableIp
  split
  · assumption
  · simp [entryPoint, imemSizeMax]

/-- The word placed by `withFetchWord` is the one the next step decodes and runs. -/
theorem fetchDecode_withFetchWord (s : State) (nbits w : Nat) {i : Instr} (h : decodeTableWord nbits w = some i) :
    fetchDecode (s.withFetchWord nbits w)
      = .run i ((s.withFetchWord nbits w).emitTrace (tableWord nbits w)) := by
  have hd : decode (tableWord nbits w) = .ok i := by
    unfold decodeTableWord at h
    cases hd : decode (tableWord nbits w) with
    | error e => simp [hd] at h
    | ok k => simp [hd] at h; rw [h]
  have hf : (s.withFetchWord nbits w).iFetch (s.withFetchWord nbits w).ip = tableWord nbits w := placeWord_getD _ _ _
  have ha : (s.withFetchWord nbits w).ip.toNat % 4 = 0 := (fetchableIp_spec s.ip).1
  have hs : ¬ (s.withFetchWord nbits w).imemSize ≤ (s.withFetchWord nbits w).ip.toNat := by
    have hl := placeWord_length (tableWord nbits w) ((fetchableIp s.ip).toNat / 4) s.imem
    change ¬ 4 * (placeWord s.imem ((fetchableIp s.ip).toNat / 4) (tableWord nbits w)).length ≤ (fetchableIp s.ip).toNat
    omega
  have hr : (s.withFetchWord nbits w).status = .running := rfl
  simp [fetchDecode, hr, hs, ha, hf, hd]

end Sys2Proof.Machine
end

