-- ==== Sys2Proof/Laws/Effects.lean ====
section
/-! SUPPORT. The effects of instructions, in the terms of Safety.lean: which lemma to cite for a row that writes a register, one that
moves `ip`, a store, a load, a data fault; and what every instruction leaves alone. -/

namespace Sys2Proof.Machine

/-- The record and the row of every instruction are the ones its word has. -/
theorem fieldsOfEncode_all (i : Instr) : Laws.FieldsOfEncode.Statement i := by
  cases i
  case add => exact Laws.FieldsOfEncode.add ..
  case addu => exact Laws.FieldsOfEncode.addu ..
  case sub => exact Laws.FieldsOfEncode.sub ..
  case subu => exact Laws.FieldsOfEncode.subu ..
  case and => exact Laws.FieldsOfEncode.and ..
  case or => exact Laws.FieldsOfEncode.or ..
  case xor => exact Laws.FieldsOfEncode.xor ..
  case nor => exact Laws.FieldsOfEncode.nor ..
  case slt => exact Laws.FieldsOfEncode.slt ..
  case sltu => exact Laws.FieldsOfEncode.sltu ..
  case j => exact Laws.FieldsOfEncode.j ..
  case beq => exact Laws.FieldsOfEncode.beq ..
  case bne => exact Laws.FieldsOfEncode.bne ..
  case addi => exact Laws.FieldsOfEncode.addi ..
  case addiu => exact Laws.FieldsOfEncode.addiu ..
  case slti => exact Laws.FieldsOfEncode.slti ..
  case sltiu => exact Laws.FieldsOfEncode.sltiu ..
  case andi => exact Laws.FieldsOfEncode.andi ..
  case ori => exact Laws.FieldsOfEncode.ori ..
  case lui => exact Laws.FieldsOfEncode.lui ..
  case lb => exact Laws.FieldsOfEncode.lb ..
  case lw => exact Laws.FieldsOfEncode.lw ..
  case sb => exact Laws.FieldsOfEncode.sb ..
  case sw => exact Laws.FieldsOfEncode.sw ..

/-! ## ALU terms -/

theorem neg_eq_neg (v : Word) : neg v = -v := by unfold neg; rw [BitVec.neg_eq_not_add]

/-- The sign bit as a word, read as a number. -/
theorem zext_signBit (v : Word) : zext (v.extractLsb' 31 1) = if 2 ^ 31 ≤ v.toNat then 1#32 else 0#32 := by
  apply BitVec.eq_of_toNat_eq
  split <;> simp [Nat.shiftRight_eq_div_pow] <;> omega

/-- The branch compare. -/
theorem zeroFlag_xor (a b : Word) : zeroFlag (a ^^^ b) = decide (a = b) := by
  unfold zeroFlag
  rw [Bool.eq_iff_iff]
  simp

/-! ## Rows without a data access -/

/-- A row that writes a register and neither accesses memory nor branches nor jumps. -/
theorem exec_writesRegister {i : Instr} {s : State} {d : RegIx} {v : Word}
    (hb : (rowOf i).branch = false) (hj : (rowOf i).jump = false) (hr : (rowOf i).memRead = false)
    (hw : (rowOf i).memWrite = false) (hm : (rowOf i).memToReg = false) (hg : (rowOf i).regWrite = true)
    (hd : destination (rowOf i) (recordOf i) = d) (hv : (aluStage (rowOf i) (recordOf i) s).1 = v) :
    ∃ t, exec i s = .next t ∧ WritesRegister d v s t := by
  subst hd hv
  rw [exec_eq_datapath, datapath_no_access hw hr]
  refine ⟨_, rfl, ?_⟩
  have hwb : writeBack (rowOf i) (recordOf i) (aluStage (rowOf i) (recordOf i) s).1 none s
      = s.setReg (destination (rowOf i) (recordOf i)) (aluStage (rowOf i) (recordOf i) s).1 := by simp [writeBack, hg, hm]
  rw [hwb]
  refine ⟨setReg_reg_self .., fun r hr' => setReg_reg_ne s _ hr', fun _ => rfl, ?_, ⟨rfl, rfl, rfl, rfl⟩, rfl, rfl⟩
  simp [nextIp, hb, hj]

/-- A row that neither accesses memory nor writes a register. -/
theorem exec_movesIp {i : Instr} {s : State} {target : Word} (hr : (rowOf i).memRead = false)
    (hw : (rowOf i).memWrite = false) (hg : (rowOf i).regWrite = false)
    (ht : nextIp (rowOf i) (recordOf i) (aluStage (rowOf i) (recordOf i) s).2 s.ip = target) :
    ∃ t, exec i s = .next t ∧ MovesIp target s t := by
  subst ht
  rw [exec_eq_datapath, datapath_no_access hw hr]
  refine ⟨_, rfl, ?_⟩
  simp only [writeBack, hg, Bool.false_eq_true, if_false]
  exact ⟨rfl, fun _ => rfl, fun _ => rfl, ⟨rfl, rfl, rfl, rfl⟩, rfl, rfl⟩

/-! ## What any instruction does -/

/-- The inversion lemma of `exec`: a data fault that changes only `status`, or the stages in order. -/
theorem exec_cases {i : Instr} {s t : State} (h : exec i s = .next t) :
    (∃ f, memStage (rowOf i) (recordOf i) (aluStage (rowOf i) (recordOf i) s).1 s = .error f
      ∧ t = s.endRun (.faulted f.kind f.addr))
    ∨ ∃ s1 m, memStage (rowOf i) (recordOf i) (aluStage (rowOf i) (recordOf i) s).1 s = .ok (s1, m)
      ∧ t = pcUpdate (rowOf i) (recordOf i) (aluStage (rowOf i) (recordOf i) s).2
          (writeBack (rowOf i) (recordOf i) (aluStage (rowOf i) (recordOf i) s).1 m s1) := by
  rw [exec_eq_datapath] at h
  obtain ⟨f, h1, h2⟩ | ⟨s1, m, h1, h2⟩ := datapath_cases (rowOf i) (recordOf i) s
  · rw [h2] at h; cases h; exact .inl ⟨f, h1, rfl⟩
  · rw [h2] at h; cases h; exact .inr ⟨s1, m, h1, rfl⟩

/-- The memory access stage of an instruction that does not fault: nothing stored, a byte stored, or a word stored. -/
theorem memStage_ok_cases {i : Instr} {a : Word} {s s1 : State} {m : Option Word}
    (h : memStage (rowOf i) (recordOf i) a s = .ok (s1, m)) :
    s1 = s
    ∨ (∃ rs rt imm16, i = .sb rs rt imm16 ∧ a.toNat < s.dmemSize ∧ ∃ v, s1 = s.setByteAt a.toNat v)
    ∨ ∃ rs rt imm16, i = .sw rs rt imm16 ∧ a.toNat % 4 = 0 ∧ a.toNat + 3 < s.dmemSize ∧ ∃ v, s1 = s.setWordAt a.toNat v := by
  cases i
  case lb => left; change memStage rowLb _ _ _ = _ at h; rw [memStage_lb] at h; split at h <;> cases h; rfl
  case lw => left; change memStage rowLw _ _ _ = _ at h; rw [memStage_lw] at h; split at h <;> cases h; rfl
  case sb =>
    right; left; change memStage rowSb _ _ _ = _ at h; rw [memStage_sb] at h; split at h <;> cases h
    exact ⟨_, _, _, rfl, byteFault_none.1 ‹_›, _, rfl⟩
  case sw =>
    right; right; change memStage rowSw _ _ _ = _ at h; rw [memStage_sw] at h; split at h <;> cases h
    exact ⟨_, _, _, rfl, (wordFault_none.1 ‹_›).1, (wordFault_none.1 ‹_›).2, _, rfl⟩
  all_goals left; rw [memStage_none rfl rfl] at h; cases h; rfl

/-- The data fault of an instruction: the instruction, the address, the condition and what is recorded. -/
theorem memStage_error_cases {i : Instr} {s : State} {f : DataFault}
    (h : memStage (rowOf i) (recordOf i) (aluStage (rowOf i) (recordOf i) s).1 s = .error f) :
    (∃ rs rt imm16, (i = .lb rs rt imm16 ∨ i = .sb rs rt imm16) ∧ s.dmemSize ≤ (s.reg rs + zext imm16).toNat
      ∧ f = ⟨.dataOutOfRange, s.reg rs + zext imm16⟩)
    ∨ ∃ rs rt imm16, (i = .lw rs rt imm16 ∨ i = .sw rs rt imm16)
      ∧ (((s.reg rs + zext imm16).toNat % 4 ≠ 0 ∧ f = ⟨.dataMisaligned, s.reg rs + zext imm16⟩)
        ∨ ((s.reg rs + zext imm16).toNat % 4 = 0 ∧ s.dmemSize ≤ (s.reg rs + zext imm16).toNat + 3
          ∧ f = ⟨.dataOutOfRange, s.reg rs + zext imm16⟩)) := by
  cases i
  case lb rs rt imm16 =>
    left; change memStage rowLb (iFields 0x20#6 rs rt imm16) (s.reg rs + zext imm16) s = _ at h
    rw [memStage_lb] at h; split at h <;> cases h
    exact ⟨_, _, _, .inl rfl, byteFault_some.1 ‹_›⟩
  case lw rs rt imm16 =>
    right; change memStage rowLw (iFields 0x23#6 rs rt imm16) (s.reg rs + zext imm16) s = _ at h
    rw [memStage_lw] at h; split at h <;> cases h
    exact ⟨_, _, _, .inl rfl, wordFault_some.1 ‹_›⟩
  case sb rs rt imm16 =>
    left; change memStage rowSb (iFields 0x28#6 rs rt imm16) (s.reg rs + zext imm16) s = _ at h
    rw [memStage_sb] at h; split at h <;> cases h
    exact ⟨_, _, _, .inr rfl, byteFault_some.1 ‹_›⟩
  case sw rs rt imm16 =>
    right; change memStage rowSw (iFields 0x2B#6 rs rt imm16) (s.reg rs + zext imm16) s = _ at h
    rw [memStage_sw] at h; split at h <;> cases h
    exact ⟨_, _, _, .inr rfl, wordFault_some.1 ‹_›⟩
  all_goals rw [memStage_none rfl rfl] at h; cases h

/-! ## Loads and stores that complete -/

/-- The next state of a word load at an aligned address in range. -/
theorem exec_lw_next {rs : RegIx} (rt : RegIx) {imm16 : Imm16} {s : State} (ha : (s.reg rs + zext imm16).toNat % 4 = 0)
    (hr : (s.reg rs + zext imm16).toNat + 3 < s.dmemSize) :
    exec (.lw rs rt imm16) s = .next ((s.setReg rt (bytesToWord s.endian (s.byteAt (s.reg rs + zext imm16).toNat)
      (s.byteAt ((s.reg rs + zext imm16).toNat + 1)) (s.byteAt ((s.reg rs + zext imm16).toNat + 2))
      (s.byteAt ((s.reg rs + zext imm16).toNat + 3)))).setIp (s.ip + 4#32)) := by
  change datapath rowLw (iFields 0x23#6 rs rt imm16) s = _
  have hm := memStage_lw (iFields 0x23#6 rs rt imm16) (s.reg rs + zext imm16) s
  rw [wordFault_none.2 ⟨ha, hr⟩] at hm
  unfold datapath
  rw [show (aluStage rowLw (iFields 0x23#6 rs rt imm16) s).1 = s.reg rs + zext imm16 from rfl, hm]
  rfl

/-- The next state of a byte store in range. -/
theorem exec_sb_next {rs : RegIx} (rt : RegIx) {imm16 : Imm16} {s : State} (hr : (s.reg rs + zext imm16).toNat < s.dmemSize) :
    exec (.sb rs rt imm16) s
      = .next ((s.setByteAt (s.reg rs + zext imm16).toNat ((s.reg rt).extractLsb' 0 8)).setIp (s.ip + 4#32)) := by
  change datapath rowSb (iFields 0x28#6 rs rt imm16) s = _
  have hm : memStage rowSb (iFields 0x28#6 rs rt imm16) (aluStage rowSb (iFields 0x28#6 rs rt imm16) s).1 s
      = .ok (s.setByteAt (s.reg rs + zext imm16).toNat ((s.reg rt).extractLsb' 0 8), none) := by
    change memStage rowSb (iFields 0x28#6 rs rt imm16) (s.reg rs + zext imm16) s = _
    rw [memStage_sb, byteFault_none.2 hr]; rfl
  unfold datapath
  rw [hm]; rfl

/-- The next state of a word store at an aligned address in range. -/
theorem exec_sw_next {rs : RegIx} (rt : RegIx) {imm16 : Imm16} {s : State} (ha : (s.reg rs + zext imm16).toNat % 4 = 0)
    (hr : (s.reg rs + zext imm16).toNat + 3 < s.dmemSize) :
    exec (.sw rs rt imm16) s = .next ((s.setWordAt (s.reg rs + zext imm16).toNat (s.reg rt)).setIp (s.ip + 4#32)) := by
  change datapath rowSw (iFields 0x2B#6 rs rt imm16) s = _
  have hm : memStage rowSw (iFields 0x2B#6 rs rt imm16) (aluStage rowSw (iFields 0x2B#6 rs rt imm16) s).1 s
      = .ok (s.setWordAt (s.reg rs + zext imm16).toNat (s.reg rt), none) := by
    change memStage rowSw (iFields 0x2B#6 rs rt imm16) (s.reg rs + zext imm16) s = _
    rw [memStage_sw, wordFault_none.2 ⟨ha, hr⟩]; rfl
  unfold datapath
  rw [hm]; rfl

/-! ## What stays -/

theorem SameLaunch.trans {a b c : State} (h : SameLaunch a b) (k : SameLaunch b c) : SameLaunch a c :=
  ⟨k.1.trans h.1, k.2.1.trans h.2.1, k.2.2.1.trans h.2.2.1, k.2.2.2.trans h.2.2.2⟩

theorem emitTrace_sameLaunch (s : State) (w : Word) : SameLaunch s (s.emitTrace w) := ⟨by simp, by simp, by simp, by simp⟩

/-- Write-back and program-counter update change at most the destination register and `ip`. -/
theorem pcUpdate_writeBack_same (C : ControlBits) (F : Fields) (z : Bool) (r : Word) (m : Option Word) (s : State) :
    SameRun s (pcUpdate C F z (writeBack C F r m s)) ∧ (pcUpdate C F z (writeBack C F r m s)).dmem = s.dmem
      ∧ SameRegsBut (destination C F) s (pcUpdate C F z (writeBack C F r m s)) := by
  obtain h | ⟨v, _, h⟩ := writeBack_cases C F r m s <;> rw [h]
  · exact ⟨⟨⟨rfl, rfl, rfl, rfl⟩, rfl, rfl⟩, rfl, fun _ _ => rfl⟩
  · exact ⟨⟨⟨rfl, rfl, rfl, rfl⟩, rfl, rfl⟩, rfl, fun _ hr => setReg_reg_ne s _ hr⟩

/-- An instruction that does not end the run keeps `status`; none touches the launch parameters or the trace. -/
theorem exec_same {i : Instr} {s t : State} (h : exec i s = .next t) :
    SameLaunch s t ∧ t.trace = s.trace
      ∧ ((∃ f, t = s.endRun (.faulted f.kind f.addr)
          ∧ memStage (rowOf i) (recordOf i) (aluStage (rowOf i) (recordOf i) s).1 s = .error f)
        ∨ t.status = s.status) := by
  obtain ⟨f, h1, rfl⟩ | ⟨s1, m, h1, rfl⟩ := exec_cases h
  · exact ⟨⟨rfl, rfl, rfl, rfl⟩, rfl, .inl ⟨f, rfl, h1⟩⟩
  · obtain ⟨⟨hl, hs, ht⟩, _, _⟩ := pcUpdate_writeBack_same (rowOf i) (recordOf i) (aluStage (rowOf i) (recordOf i) s).2
      (aluStage (rowOf i) (recordOf i) s).1 m s1
    obtain rfl | ⟨_, _, _, _, _, _, rfl⟩ | ⟨_, _, _, _, _, _, _, rfl⟩ := memStage_ok_cases h1
    · exact ⟨hl, ht, .inr hs⟩
    · exact ⟨hl, ht, .inr hs⟩
    · exact ⟨hl, ht, .inr hs⟩

end Sys2Proof.Machine
end

