-- ==== Sys2Proof/Laws/Entry.lean ====
section
/-! SUPPORT. The launch, the bounded run of the entry point and its result (spec/40_datapath.md R66): what each can do, said once. -/

namespace Sys2Proof.Machine

/-! ## Launch -/

/-- A launch that answers a state is allowed, and the state is its start state. -/
theorem launch_next {l : Launch} {s : State} (h : launch l = .next s) : l.wellFormed = true ∧ s = State.ofLaunch l := by
  unfold launch at h
  split at h
  · cases h; exact ⟨‹_›, rfl⟩
  · cases h

/-! ## Result -/

@[simp] theorem runResult_running : runResult .running = none := rfl

@[simp] theorem runResult_halted : runResult .halted = some .ok := rfl

@[simp] theorem runResult_aborted (k : AbortKind) (c : BitVec 6) : runResult (.aborted k c) = some (.err (abortError k c)) := rfl

@[simp] theorem runResult_faulted (k : FaultKind) (a : Word) : runResult (.faulted k a) = some (.err (faultError k a)) := rfl

/-! ## Bounded run -/

@[simp] theorem runFor_zero (s : State) : runFor 0 s = s := rfl

/-- An ended run stays as it is. -/
theorem runFor_ended {s : State} (h : s.status ≠ .running) (n : Nat) : runFor n s = s := by
  cases n with
  | zero => rfl
  | succ n => rw [runFor, if_neg h]

/-- A running run takes the machine's step. -/
theorem runFor_succ_next {s t : State} (h : s.status = .running) (hs : step s = .next t) (n : Nat) :
    runFor (n + 1) s = runFor n t := by
  rw [runFor, if_pos h, hs]

/-- The run of `n + k` steps is the run of `k` steps after the run of `n`. -/
theorem runFor_add (k : Nat) : ∀ (n : Nat) (s : State), runFor (n + k) s = runFor k (runFor n s)
  | 0, s => by rw [Nat.zero_add, runFor_zero]
  | n + 1, s => by
    by_cases h : s.status = .running
    · obtain ⟨t, ht⟩ := step_running_next h
      rw [Nat.add_right_comm, runFor_succ_next h ht, runFor_succ_next h ht, runFor_add k n t]
    · rw [runFor_ended h, runFor_ended h, runFor_ended h]

/-- While it is Running, the bounded run is the machine's run. -/
theorem core_run_eq_runFor : ∀ (n : Nat) (s : State), (runFor n s).status = .running → Sys2Proof.core.run n s = .next (runFor n s)
  | 0, _, _ => rfl
  | n + 1, s, h => by
    by_cases hr : s.status = .running
    · obtain ⟨t, ht⟩ := step_running_next hr
      rw [runFor_succ_next hr ht] at h ⊢
      rw [core_run_succ_next n ht, core_run_eq_runFor n t h]
    · rw [runFor_ended hr] at h; exact absurd h hr

end Sys2Proof.Machine
end

