-- ==== Sys2Proof/Tests/Slice0.lean ====
section
/-! SUPPORT. Tests: the checks refuse ill-formed terms; every constructor's word, taken from the spec's encodings, decodes to it; at
most two small tests per instruction, one step each, with the expected values of spec/95_test_vectors.md (the vector's name stands
in the docstring); and a witness for the hypotheses of every obligation that has some. -/

namespace Sys2Proof.Machine

/-! ## Helpers -/

/-- A state with the given registers and bytes, every other register and byte 0, `DMEM_SIZE` 0x100, no program. -/
def testState (ip : Word) (regs : List (RegIx × Word)) (dmem : List Host.Cell) (e : Endian) : State :=
  regs.foldl (fun s p => s.setReg p.1 p.2)
    { State.reset with ip := ip, dmem := dmem, dmemSize := 0x100, endian := e }

/-- A state at the call of the entry point with the given program. -/
def testProgram (ws : List Word) (debug : Bool) : State :=
  { State.reset with imem := ws, dmemSize := 0x100, debug := debug }

/-- The next state, if there is one. -/
def nextState (o : Host.Outcome State Fault Refusal) : Option State :=
  match o with
  | .next t => some t
  | .fault _ => none
  | .refused _ => none

/-- The state after the instruction of a word. -/
def after (w : Word) (s : State) : Option State :=
  match decode w with
  | .ok i => nextState (exec i s)
  | .error _ => none

/-- What a register-format or immediate-format vector shows: one register and `ip`. -/
def regAndIp (r : RegIx) (o : Option State) : Option (Word × Word) := o.map fun t => (t.reg r, t.ip)

/-- One step of a state as it stands. -/
def stepped (s : State) : Option State := nextState (step s)

/-- Two steps. -/
def steppedTwice (s : State) : Option State := (stepped s).bind stepped

/-! ## WellFormed refuses ill-formed terms -/

/-- R53: bits 10–6 not 0. -/
theorem test_form_ignored_bits_refused :
    (Instr.slt 2 1 5 8).assemblerForm = false ∧ (Instr.add 1 2 3 1).assemblerForm = false := by decide

/-- R53: `lui` with `rs` not 0 (it runs all the same, vector IM12). -/
theorem test_form_lui_rs_refused : (Instr.lui 2 1 0x1234).assemblerForm = false := by decide

theorem test_form_accepted :
    (Instr.slt 2 1 5 0).assemblerForm = true ∧ (Instr.lui 0 1 0x1234).assemblerForm = true ∧ (Instr.j 0x10).assemblerForm = true := by decide

theorem test_launch_accepted : bareLaunch.wellFormed = true ∧ ({ bareLaunch with dmemSize := 0 }).wellFormed = true := by decide

/-- R28: one byte above the 32-bit data space. -/
theorem test_launch_dmem_size_refused : ({ bareLaunch with dmemSize := 0x100000001 }).wellFormed = false := by decide

theorem test_launch_unsorted_refused : ({ bareLaunch with dmem0 := [(5, 1#8), (4, 1#8)] }).wellFormed = false := by decide

theorem test_launch_repeated_refused : ({ bareLaunch with dmem0 := [(4, 1#8), (4, 2#8)] }).wellFormed = false := by decide

theorem test_launch_listed_zero_refused : ({ bareLaunch with dmem0 := [(4, 0#8)] }).wellFormed = false := by decide

/-- R28: a byte at `DMEM_SIZE`. -/
theorem test_launch_byte_outside_refused :
    ({ bareLaunch with dmemSize := 0x100, dmem0 := [(0x100, 1#8)] }).wellFormed = false := by decide

/-- R26: a program of 2^32 bytes. -/
theorem test_launch_program_refused (ws : List Word) (h : ws.length = 0x40000000) :
    ({ bareLaunch with imem := ws }).wellFormed = false := by
  have hn : decide (4 * ws.length ≤ imemSizeMax) = false := by rw [h]; decide
  simp only [Launch.wellFormed, Launch.imemSize, hn, Bool.false_and]

/-! ## Decoding, one word per constructor -/

theorem test_decode_add : decode 0x00221820#32 = .ok (.add 1 2 3 0) := by decide

theorem test_decode_addu : decode 0x00221821#32 = .ok (.addu 1 2 3 0) := by decide

theorem test_decode_sub : decode 0x00221822#32 = .ok (.sub 1 2 3 0) := by decide

theorem test_decode_subu : decode 0x00221823#32 = .ok (.subu 1 2 3 0) := by decide

theorem test_decode_and : decode 0x00221824#32 = .ok (.and 1 2 3 0) := by decide

theorem test_decode_or : decode 0x00221825#32 = .ok (.or 1 2 3 0) := by decide

theorem test_decode_xor : decode 0x00221826#32 = .ok (.xor 1 2 3 0) := by decide

theorem test_decode_nor : decode 0x00221827#32 = .ok (.nor 1 2 3 0) := by decide

theorem test_decode_slt : decode 0x0022182A#32 = .ok (.slt 1 2 3 0) := by decide

theorem test_decode_sltu : decode 0x0022182B#32 = .ok (.sltu 1 2 3 0) := by decide

theorem test_decode_j : decode 0x0A000010#32 = .ok (.j 0x2000010) := by decide

theorem test_decode_beq : decode 0x10220020#32 = .ok (.beq 1 2 0x0020) := by decide

theorem test_decode_bne : decode 0x14220020#32 = .ok (.bne 1 2 0x0020) := by decide

theorem test_decode_addi : decode 0x2041FFFF#32 = .ok (.addi 2 1 0xFFFF) := by decide

theorem test_decode_addiu : decode 0x2441FFFF#32 = .ok (.addiu 2 1 0xFFFF) := by decide

theorem test_decode_slti : decode 0x28411805#32 = .ok (.slti 2 1 0x1805) := by decide

theorem test_decode_sltiu : decode 0x2C411805#32 = .ok (.sltiu 2 1 0x1805) := by decide

theorem test_decode_andi : decode 0x3041FF00#32 = .ok (.andi 2 1 0xFF00) := by decide

theorem test_decode_ori : decode 0x34215678#32 = .ok (.ori 1 1 0x5678) := by decide

theorem test_decode_lui : decode 0x3C411234#32 = .ok (.lui 2 1 0x1234) := by decide

theorem test_decode_lb : decode 0x80030010#32 = .ok (.lb 0 3 0x0010) := by decide

theorem test_decode_lw : decode 0x8C220020#32 = .ok (.lw 1 2 0x0020) := by decide

theorem test_decode_sb : decode 0xA0010020#32 = .ok (.sb 0 1 0x0020) := by decide

theorem test_decode_sw : decode 0xAC0100FC#32 = .ok (.sw 0 1 0x00FC) := by decide

/-- R43 bit by bit: 000000 00001 00010 00011 00000 100010 (DEC1). -/
theorem test_decode_bitwise : decode (0b00000000001000100001100000100010#32) = .ok (.sub 1 2 3 0) := by decide

/-- R43 bit by bit: 101011 11101 11110 1111111111111100. -/
theorem test_encode_bitwise : encode (.sw 29 30 0xFFFC) = 0b10101111101111101111111111111100#32 := by decide

/-- DEC4, P5. -/
theorem test_decode_mips_nop_aborts : decode 0x00000000#32 = .error ⟨.unsupportedFunct, 0x00⟩ := by decide

/-- ER4. -/
theorem test_decode_jr_aborts : decode 0x03E00008#32 = .error ⟨.unsupportedFunct, 0x08⟩ := by decide

/-- ER5. -/
theorem test_decode_lbu_aborts : decode 0x90010000#32 = .error ⟨.unsupportedOpcode, 0x24⟩ := by decide

/-- DEC2. -/
theorem test_record_all_ones : decodeFields 0xFFFFFFFF#32 = ⟨0x3F, 31, 31, 31, 0x3F, 0xFFFF, 0x3FFFFFF⟩ := by decide

/-- DEC6. -/
theorem test_record_slti : decodeFields 0x28411805#32 = ⟨0x0A, 2, 1, 3, 0x05, 0x1805, 0x0411805⟩ := by decide

theorem test_table_word_decodes :
    decodeTableWord 32 0x00221820 = some (.add 1 2 3 0) ∧ decodeTableWord 32 0x00000000 = none := by decide

/-! ## ALU corners -/

/-- ALU4. -/
theorem test_alu_neg_min : aluExecute .add 0x80000000 0x80000000 true = (0, true) := by decide

/-- ALU14. -/
theorem test_alu_slt_signed : aluExecute .slt 0 0xFFFFFFFF true = (0, true) := by decide

/-- ALU19. -/
theorem test_alu_slt_overflow_band : aluExecute .slt 0x7FFFFFFF 0x80000000 true = (1, false) := by decide

/-! ## Register-format instructions -/

/-- RF1. -/
theorem test_add_wraps :
    regAndIp 3 (after 0x00221820#32 (testState 0x100 [(1, 0xFFFFFFFF), (2, 1)] [] .little)) = some (0, 0x104) := by decide

/-- RF15. -/
theorem test_add_same_register :
    regAndIp 1 (after 0x00210820#32 (testState 0x100 [(1, 3)] [] .little)) = some (6, 0x104) := by decide

/-- RF3. -/
theorem test_addu_wraps :
    regAndIp 3 (after 0x00221821#32 (testState 0x100 [(1, 0xFFFFFFFF), (2, 2)] [] .little)) = some (1, 0x104) := by decide

/-- RF5. -/
theorem test_sub_no_trap :
    regAndIp 3 (after 0x00221822#32 (testState 0x100 [(1, 0x80000000), (2, 1)] [] .little)) = some (0x7FFFFFFF, 0x104) := by decide

/-- RF17. -/
theorem test_sub_writes_register_zero :
    regAndIp 0 (after 0x00210022#32 (testState 0x100 [(0, 0x55), (1, 9)] [] .little)) = some (0, 0x104) := by decide

/-- RF6. -/
theorem test_subu_negative :
    regAndIp 3 (after 0x00221823#32 (testState 0x100 [(1, 3), (2, 5)] [] .little)) = some (0xFFFFFFFE, 0x104) := by decide

/-- RF7. -/
theorem test_and :
    regAndIp 3 (after 0x00221824#32 (testState 0x100 [(1, 0x12345678), (2, 0x0000FFFF)] [] .little)) = some (0x00005678, 0x104) := by decide

/-- RF8. -/
theorem test_or :
    regAndIp 3 (after 0x00221825#32 (testState 0x100 [(1, 0xF0), (2, 0x0F)] [] .little)) = some (0xFF, 0x104) := by decide

/-- RF9. -/
theorem test_xor :
    regAndIp 3 (after 0x00221826#32 (testState 0x100 [(1, 0xF0F0F0F0), (2, 0xFFFF0000)] [] .little)) = some (0x0F0FF0F0, 0x104) := by decide

/-- RF11. -/
theorem test_nor :
    regAndIp 3 (after 0x00221827#32 (testState 0x100 [(1, 5), (2, 3)] [] .little)) = some (0xFFFFFFF8, 0x104) := by decide

/-- RF13. -/
theorem test_slt_overflow_band :
    regAndIp 3 (after 0x0022182A#32 (testState 0x100 [(1, 0x80000000), (2, 1)] [] .little)) = some (0, 0x104) := by decide

/-- RF18. -/
theorem test_slt_ignored_bits :
    regAndIp 5 (after 0x00412A2A#32 (testState 0x100 [(1, 5), (2, 3)] [] .little)) = some (1, 0x104) := by decide

/-- RF14. -/
theorem test_sltu_is_signed :
    regAndIp 3 (after 0x0022182B#32 (testState 0x100 [(1, 1), (2, 0xFFFFFFFF)] [] .little)) = some (0, 0x104) := by decide

/-! ## Jump and branches -/

/-- JB2. -/
theorem test_j_ors_bits : (after 0x0A000010#32 (testState 0x01000004 [] [] .little)).map State.ip = some 0x03000010 := by decide

/-- JB3. -/
theorem test_j_keeps_top : (after 0x08000010#32 (testState 0x12345670 [] [] .little)).map State.ip = some 0x12000010 := by decide

/-- JB5. -/
theorem test_beq_taken_on_different :
    (after 0x10220020#32 (testState 0x00001000 [(1, 1), (2, 2)] [] .little)).map State.ip = some 0x00000020 := by decide

/-- JB6. -/
theorem test_beq_not_taken_on_equal :
    (after 0x10220020#32 (testState 0x00001000 [(1, 7), (2, 7)] [] .little)).map State.ip = some 0x00001004 := by decide

/-- JB10. -/
theorem test_bne_not_taken_on_different :
    (after 0x14220020#32 (testState 0x00001000 [(1, 1), (2, 2)] [] .little)).map State.ip = some 0x00001004 := by decide

/-- JB11. -/
theorem test_bne_same_register_taken :
    (after 0x1421FFFC#32 (testState 0xABCD0010 [] [] .little)).map State.ip = some 0xABCDFFFC := by decide

/-! ## Immediate-format instructions -/

/-- IM1. -/
theorem test_addi_zero_extends :
    regAndIp 1 (after 0x2041FFFF#32 (testState 0x100 [(2, 1)] [] .little)) = some (0x00010000, 0x104) := by decide

/-- IM2. -/
theorem test_addi_wraps :
    regAndIp 1 (after 0x20410001#32 (testState 0x100 [(2, 0xFFFFFFFF)] [] .little)) = some (0, 0x104) := by decide

/-- IM3. -/
theorem test_addiu_zero_extends :
    regAndIp 1 (after 0x2441FFFF#32 (testState 0x100 [(2, 0xFFFF0001)] [] .little)) = some (0, 0x104) := by decide

/-- IM4. -/
theorem test_slti_writes_imm_field :
    regAndIp 3 (after 0x28411805#32 (testState 0x100 [(1, 5), (2, 3)] [] .little)) = some (1, 0x104) := by decide

/-- IM5. -/
theorem test_slti_writes_register_zero :
    regAndIp 0 (after 0x28410005#32 (testState 0x100 [(0, 0x77), (1, 5), (2, 3)] [] .little)) = some (1, 0x104) := by decide

/-- IM6. -/
theorem test_sltiu_is_signed :
    regAndIp 3 (after 0x2C411805#32 (testState 0x100 [(1, 0xFFFFFFFF), (2, 0)] [] .little)) = some (0, 0x104) := by decide

/-- IM7. -/
theorem test_andi :
    regAndIp 1 (after 0x3041FF00#32 (testState 0x100 [(2, 0x12345678)] [] .little)) = some (0x00005600, 0x104) := by decide

/-- IM9. -/
theorem test_ori :
    regAndIp 1 (after 0x34215678#32 (testState 0x100 [(1, 0x12340000)] [] .little)) = some (0x12345678, 0x104) := by decide

/-- IM11. -/
theorem test_lui_ors_register_zero :
    regAndIp 1 (after 0x3C011234#32 (testState 0x100 [(0, 0x000000FF)] [] .little)) = some (0x123400FF, 0x104) := by decide

/-- IM12. -/
theorem test_lui_ors_rs :
    regAndIp 1 (after 0x3C411234#32 (testState 0x100 [(2, 0x0000ABCD)] [] .little)) = some (0x1234ABCD, 0x104) := by decide

/-! ## Loads and stores -/

/-- LS1. -/
theorem test_lb_zero_extends :
    regAndIp 3 (after 0x80030010#32 (testState 0x100 [] [(0x10, 0xF8)] .little)) = some (0x000000F8, 0x104) := by decide

/-- LS2. -/
theorem test_lb_last_byte :
    regAndIp 1 (after 0x800100FF#32 (testState 0x100 [] [(0xFF, 0x80)] .little)) = some (0x00000080, 0x104) := by decide

/-- LS3. -/
theorem test_lw_little :
    regAndIp 2 (after 0x8C020010#32 (testState 0x100 [] [(0x10, 0x78), (0x11, 0x56), (0x12, 0x34), (0x13, 0x12)] .little)) = some (0x12345678, 0x104) := by decide

/-- LS4 (big). -/
theorem test_lw_big_wrapped_address :
    regAndIp 2 (after 0x8C220020#32 (testState 0x100 [(1, 0xFFFFFFF0)] [(0x10, 0x01)] .big)) = some (0x01000000, 0x104) := by decide

/-- LS6. -/
theorem test_sb_low_byte :
    (after 0xA0010020#32 (testState 0x100 [(1, 0x12345678)] [] .little)).map (fun t => (t.dmem, t.ip)) = some ([(0x20, 0x78)], 0x104) := by decide

/-- LS9. -/
theorem test_sb_out_of_range :
    (after 0xA0010100#32 (testState 0x100 [(1, 1)] [] .little)).map (fun t => (t.status, t.ip, t.dmem)) = some (.faulted .dataOutOfRange 0x100, 0x100, []) := by decide

/-- LS5. -/
theorem test_sw_last_word_little :
    (after 0xAC0100FC#32 (testState 0x100 [(1, 0xAABBCCDD)] [] .little)).map State.dmem = some [(0xFC, 0xDD), (0xFD, 0xCC), (0xFE, 0xBB), (0xFF, 0xAA)] := by decide

/-- LS5 (big). -/
theorem test_sw_last_word_big :
    (after 0xAC0100FC#32 (testState 0x100 [(1, 0xAABBCCDD)] [] .big)).map State.dmem = some [(0xFC, 0xAA), (0xFD, 0xBB), (0xFE, 0xCC), (0xFF, 0xDD)] := by decide

/-- LS10. -/
theorem test_lw_misaligned_before_range :
    (after 0x8C010101#32 (testState 0x100 [] [] .little)).map (fun t => (t.status, t.ip)) = some (.faulted .dataMisaligned 0x101, 0x100) := by decide

/-- LS8. -/
theorem test_sw_out_of_range :
    (after 0xAC010100#32 (testState 0x100 [(1, 1)] [] .little)).map (fun t => (t.status, t.dmem)) = some (.faulted .dataOutOfRange 0x100, []) := by decide

/-! ## The cycle -/

/-- ER1. -/
theorem test_empty_program_halts :
    (stepped (testProgram [] true)).map (fun t => (t.status, t.ip, t.trace)) = some (.halted, 0, []) := by decide

/-- ER3. -/
theorem test_unsupported_opcode_aborts :
    (stepped (testProgram [0x38220003#32] false)).map (fun t => (t.status, t.ip)) = some (.aborted .unsupportedOpcode 0x0E, 0) := by decide

/-- ER6 and TR2. -/
theorem test_misaligned_fetch :
    (steppedTwice (testProgram [0x08000002#32, 0x20010001#32] true)).map (fun t => (t.status, t.ip, t.reg 1, t.trace))
      = some (.faulted .fetchMisaligned 2, 2, 0, [⟨0, 0x08000002⟩]) := by decide

/-- ER7. -/
theorem test_halt_before_alignment :
    (steppedTwice (testProgram [0x08000009#32, 0x20010001#32] false)).map (fun t => (t.status, t.ip)) = some (.halted, 9) := by decide

/-- TR1. -/
theorem test_abort_traced :
    (steppedTwice (testProgram [0x20010001#32, 0x00000000#32] true)).map (fun t => (t.status, t.trace))
      = some (.aborted .unsupportedFunct 0, [⟨0, 0x20010001⟩, ⟨4, 0x00000000⟩]) := by decide

theorem test_ended_run_is_stuck : nextState (step { State.reset with status := .halted }) = none := by decide

/-- S10, first word. -/
theorem test_fetch_word_from_reset :
    (stepped (State.reset.withFetchWord 32 0x20010001)).map (fun t => (t.reg 1, t.ip, t.status)) = some (1, 4, .running) := by decide

/-- P6. -/
theorem test_result_of_data_fault : runResult (.faulted .dataOutOfRange 0x104) = some (.err (.dataOutOfRange 0x104)) := by decide

/-- P5. -/
theorem test_result_of_abort : runResult (.aborted .unsupportedFunct 0) = some (.err (.unsupportedFunct 0)) := by decide

/-! ## Witnesses for the hypotheses of the obligations -/

/-- Also for SignalTableReproduced and the third clause of DecoderRecordOfEveryWord. -/
theorem witness_EncodeOfDecode : decode 0x00412A2A#32 = .ok (.slt 2 1 5 8) := by decide

/-- Two register-format words that differ only in bits 10–6: a pair that decodes (DEC5) and a pair that aborts. -/
theorem witness_DecoderRecordOfEveryWord :
    AgreeOffIgnored 0x00412A2A 0x0041282A ∧ AgreeOffIgnored 0x00000000 0x00000040
      ∧ (decodeFields 0x00412A2A).opcode = 0 ∧ (decodeFields 0x00000000).opcode = 0
      ∧ decode 0x00412A2A = .ok (.slt 2 1 5 8) ∧ decode 0x0041282A = .ok (.slt 2 1 5 0) := by
  have lift : ∀ w w' : Word, (∀ k : Fin 32, k.val < 6 ∨ 10 < k.val → w.getLsbD k.val = w'.getLsbD k.val) →
      AgreeOffIgnored w w' := by
    intro w w' h k hk
    by_cases hk32 : k < 32
    · exact h ⟨k, hk32⟩ hk
    · rw [BitVec.getLsbD_of_ge _ _ (by omega), BitVec.getLsbD_of_ge _ _ (by omega)]
  exact ⟨lift _ _ (by decide), lift _ _ (by decide), by decide, by decide, by decide, by decide⟩

theorem witness_ControlUnitRejectsSameWords : (0x04#6 : Opcode) ≠ 0#6 := by decide

theorem witness_NotResInvertsResultAndFlag :
    rowNor.notRes = true ∧ rowBne.notRes = false ∧ decode 0x00221827#32 = .ok (.nor 1 2 3 0)
      ∧ derive (decodeFields 0x00221827#32).opcode (decodeFields 0x00221827#32).funct = .ok rowNor := by decide

theorem witness_OperandSelection :
    rowAnd.regDst = true ∧ (rowLui.regDst = false ∧ rowLui.immUpper = true) ∧ rowOri.regDst = false ∧ rowOri.immUpper = false := by decide

/-- The memory value of the second clause is `some v`, the ALU result of the third is `v`. -/
theorem witness_WriteBackCommits :
    rowSw.regWrite = false ∧ (rowLw.regWrite = true ∧ rowLw.memToReg = true) ∧ (rowAnd.regWrite = true ∧ rowAnd.memToReg = false)
      ∧ derive 0x23 0x00 = .ok rowLw ∧ rowLw.memToReg = true := by decide

/-- One row for each clause, with `z = true`. -/
theorem witness_ProgramCounterUpdate :
    rowBeq.branch = true ∧ (rowJump.branch = false ∧ rowJump.jump = true) ∧ rowOr.branch = false ∧ rowOr.jump = false := by decide

/-- A completed instruction followed by a fetchable one (the program of S10). -/
theorem witness_ProgramCounterUpdate_no_delay_slot :
    ∃ t, exec (.addi 0 1 1) (testProgram [0x20010001#32, 0x20020002#32] false) = .next t ∧ t.status = .running ∧ Fetchable t
      ∧ decode (t.iFetch t.ip) = .ok (.addi 0 2 2) :=
  ⟨_, rfl, by decide, ⟨by decide, by decide⟩, by decide⟩

/-- The first and the last byte. -/
theorem witness_LoadByteResult :
    ((testState 0x100 [] [] .little).reg 0 + zext (0x0000#16 : Imm16)).toNat < (testState 0x100 [] [] .little).dmemSize
      ∧ ((testState 0x100 [] [] .little).reg 0 + zext (0x00FF#16 : Imm16)).toNat < (testState 0x100 [] [] .little).dmemSize := by decide

/-- The last word. -/
theorem witness_LoadWordResult :
    ((testState 0x100 [] [] .little).reg 0 + zext (0x00FC#16 : Imm16)).toNat % 4 = 0 ∧ ((testState 0x100 [] [] .little).reg 0 + zext (0x00FC#16 : Imm16)).toNat + 3 < (testState 0x100 [] [] .little).dmemSize := by decide

theorem witness_StoreByteResult :
    Memory.wf (testState 0x100 [] [(0xFF, 1)] .little).dmem = true
      ∧ ((testState 0x100 [] [(0xFF, 1)] .little).reg 0 + zext (0x00FF#16 : Imm16)).toNat < (testState 0x100 [] [(0xFF, 1)] .little).dmemSize := by decide

/-- Also for StoredWordLoadsBack and FirstByteOfStoredWord (either byte order: the hypotheses do not name it). -/
theorem witness_StoreWordResult :
    Memory.wf (testState 0x100 [] [(0xFC, 1)] .big).dmem = true ∧ ((testState 0x100 [] [(0xFC, 1)] .big).reg 0 + zext (0x00FC#16 : Imm16)).toNat % 4 = 0
      ∧ ((testState 0x100 [] [(0xFC, 1)] .big).reg 0 + zext (0x00FC#16 : Imm16)).toNat + 3 < (testState 0x100 [] [(0xFC, 1)] .big).dmemSize := by decide

/-- The first byte outside. -/
theorem witness_DataFaultsAreRaised_byte :
    (testState 0x100 [] [] .little).dmemSize ≤ ((testState 0x100 [] [] .little).reg 0 + zext (0x0100#16 : Imm16)).toNat := by decide

/-- Misaligned and out of range: the second clause takes it (LS10). -/
theorem witness_DataFaultsAreRaised_misaligned :
    ((testState 0x100 [] [] .little).reg 0 + zext (0x0101#16 : Imm16)).toNat % 4 ≠ 0 := by decide

theorem witness_DataFaultsAreRaised_word :
    ((testState 0x100 [] [] .little).reg 0 + zext (0x0100#16 : Imm16)).toNat % 4 = 0 ∧ (testState 0x100 [] [] .little).dmemSize ≤ ((testState 0x100 [] [] .little).reg 0 + zext (0x0100#16 : Imm16)).toNat + 3 := by decide

/-- A word whose first bytes exist and whose last do not. -/
theorem witness_DataFaultsAreRaised_straddle :
    (({ testState 0x100 [] [] .little with dmemSize := 0x102 }).reg 0 + zext (0x0100#16 : Imm16)).toNat % 4 = 0 ∧ ({ testState 0x100 [] [] .little with dmemSize := 0x102 } : State).dmemSize ≤ (({ testState 0x100 [] [] .little with dmemSize := 0x102 }).reg 0 + zext (0x0100#16 : Imm16)).toNat + 3
      ∧ (({ testState 0x100 [] [] .little with dmemSize := 0x102 }).reg 0 + zext (0x0100#16 : Imm16)).toNat < 0x102 := by decide

/-- Read the same as itself at every address. -/
theorem witness_CanonicalMemoriesEqualIfSameBytes : Memory.wf [(0x10, 0x78#8), (0xFF, 0x01#8)] = true := by decide

/-- Registers 0 and 31 exchanged. -/
theorem witness_NoRegisterIsSpecial :
    Renamed (Equiv.swap 0 31) (testState 0 [(0, 5), (31, 7)] [] .little) (testState 0 [(0, 7), (31, 5)] [] .little) :=
  ⟨by decide, rfl, rfl, rfl, rfl, rfl, rfl, rfl, rfl⟩

/-- A store steps, writes no register and changes memory. Also for LaunchParametersNeverChange, StepLeavesExplainedStatus and
InstructionPointerMoves. -/
theorem witness_OnlyStoresChangeMemory :
    ∃ t, step ((testProgram [0xAC010010#32] false).setReg 1 0x12345678) = .next t ∧ t.dmem ≠ [] ∧ t.status = .running
      ∧ decode ((testProgram [0xAC010010#32] false).iFetch 0) = .ok (.sw 0 1 0x0010) ∧ (rowOf (.sw 0 1 0x0010)).regWrite = false :=
  ⟨_, rfl, by decide, by decide, by decide, by decide⟩

/-- AtMostOneRegisterPerCycle: a step, and a decoded row without a register write. -/
theorem witness_AtMostOneRegisterPerCycle :
    (∃ t, step (testProgram [0x08000010#32] false) = .next t)
      ∧ decode ((testProgram [0x08000010#32] false).iFetch (testProgram [0x08000010#32] false).ip) = .ok (.j 0x10)
      ∧ (rowOf (.j 0x10)).regWrite = false :=
  ⟨⟨_, rfl⟩, by decide, by decide⟩

theorem witness_StepRunsDecodedInstruction :
    (testProgram [0x20010001#32] true).status = .running ∧ (testProgram [0x20010001#32] true).ip.toNat % 4 = 0
      ∧ (testProgram [0x20010001#32] true).imem[(testProgram [0x20010001#32] true).ip.toNat / 4]? = some 0x20010001#32
      ∧ decode 0x20010001#32 = .ok (.addi 0 1 1) := by decide

/-- The boundary `ip = IMEM_SIZE`, and an unaligned `ip` above it. -/
theorem witness_StepHaltsPastProgram :
    State.reset.status = .running ∧ 4 * State.reset.imem.length ≤ State.reset.ip.toNat
      ∧ 4 * (testProgram [0x08000009#32] false).imem.length ≤ ((testProgram [0x08000009#32] false).setIp 9).ip.toNat := by decide

theorem witness_MisalignedFetchFaults :
    ((testProgram [0x08000002#32] false).setIp 3).status = .running
      ∧ ((testProgram [0x08000002#32] false).setIp 3).ip.toNat < 4 * ((testProgram [0x08000002#32] false).setIp 3).imem.length
      ∧ ((testProgram [0x08000002#32] false).setIp 3).ip.toNat % 4 ≠ 0 := by decide

theorem witness_UnsupportedWordEndsRun :
    (testProgram [0x0C000000#32] false).status = .running ∧ (testProgram [0x0C000000#32] false).ip.toNat % 4 = 0
      ∧ (testProgram [0x0C000000#32] false).imem[(testProgram [0x0C000000#32] false).ip.toNat / 4]? = some 0x0C000000#32
      ∧ decode 0x0C000000#32 = .error ⟨.unsupportedOpcode, 0x03⟩ := by decide

/-- A Running state (the hypothesis of the second clause), and an ended one. -/
theorem witness_EndedRunIsStuck :
    State.reset.status = .running ∧ ({ State.reset with status := .halted } : State).status ≠ .running := by decide

/-- A step into each of the five errors, with the code or address it records: S11, ER2, ER6, LS7, LS8. -/
theorem witness_ErrorsArePrecise :
    (∃ t, step (testProgram [0x0C000000#32] true) = .next t ∧ t.status = .aborted .unsupportedOpcode 0x03)
      ∧ (∃ t, step (testProgram [0x00000000#32] true) = .next t ∧ t.status = .aborted .unsupportedFunct 0x00)
      ∧ (∃ t, step ((testProgram [0x08000002#32] true).setIp 2) = .next t ∧ t.status = .faulted .fetchMisaligned 2)
      ∧ (∃ t, step (testProgram [0x8C010012#32] true) = .next t ∧ t.status = .faulted .dataMisaligned 0x12)
      ∧ (∃ t, step (testProgram [0xAC010100#32] true) = .next t ∧ t.status = .faulted .dataOutOfRange 0x100)
      ∧ (∀ k c, (RunStatus.aborted k c).isError = true) ∧ ∀ k a, (RunStatus.faulted k a).isError = true :=
  ⟨⟨_, rfl, by decide⟩, ⟨_, rfl, by decide⟩, ⟨_, rfl, by decide⟩, ⟨_, rfl, by decide⟩, ⟨_, rfl, by decide⟩, fun _ _ => rfl,
    fun _ _ => rfl⟩

/-- A program of the greatest length, its words all `addi $1, $0, 1`, at the greatest `ip` an instruction runs at. -/
theorem step_of_greatest_program (ws : List Word) (hl : ws.length = 0x3FFFFFFF) (hw : ws.getD 0x3FFFFFFE 0#32 = 0x20010001#32) :
    ∃ s : State, s.ip = 0xFFFFFFF8 ∧ s.imemSize ≤ 0xFFFFFFFC ∧ ∃ t, step s = .next t ∧ t.status = .running := by
  let s : State := { State.reset with imem := ws, ip := 0xFFFFFFF8 }
  have hs : s.imemSize = 0xFFFFFFFC := by change 4 * ws.length = _; rw [hl]
  have hf : fetchDecode s = .run (.addi 0 1 1) s := by
    have hd : decode 0x20010001#32 = .ok (.addi 0 1 1) := by decide
    have hn : (0xFFFFFFF8#32).toNat / 4 = 0x3FFFFFFE := by decide
    have hw' : s.iFetch s.ip = 0x20010001#32 := by
      change ws.getD ((0xFFFFFFF8#32).toNat / 4) 0#32 = _
      rw [hn, hw]
    have ha : s.ip.toNat = 0xFFFFFFF8 := rfl
    have hr : s.status = .running := rfl
    have he : s.emitTrace 0x20010001#32 = s := rfl
    simp only [fetchDecode, hs, hw', hd, ha, hr, he]
    rfl
  have hx : step s = exec (.addi 0 1 1) s := by simp only [step, hf]
  exact ⟨s, rfl, hs.le, _, hx, rfl⟩

/-- At the boundary. -/
theorem witness_InstructionPointerNeverWraps :
    ∃ s : State, s.ip = 0xFFFFFFF8 ∧ s.imemSize ≤ 0xFFFFFFFC ∧ ∃ t, step s = .next t ∧ t.status = .running :=
  have key : ∀ n, n = 0x3FFFFFFF → (List.replicate n 0x20010001#32).getD 0x3FFFFFFE 0#32 = 0x20010001#32 := by
    intro n hn
    rw [List.getD_eq_getElem?_getD, List.getElem?_replicate, if_pos (by omega)]
    rfl
  step_of_greatest_program _ List.length_replicate (key _ rfl)

/-- States that differ in the debug flag and the trace, one running and one ended. -/
theorem witness_TraceInfluencesNothing :
    quiet (testProgram [0x20010001#32] true) = quiet (testProgram [0x20010001#32] false)
      ∧ (∃ t, step (testProgram [0x20010001#32] true) = .next t)
      ∧ quiet { testProgram [] true with status := .halted } = quiet { testProgram [] false with status := .halted }
      ∧ ∃ f, step { testProgram [] true with status := .halted } = .fault f :=
  ⟨by decide, ⟨_, rfl⟩, by decide, ⟨_, rfl⟩⟩

/-- A step that fetches with the debug flag set, and one that fetches without it. -/
theorem witness_TraceRecordsEveryFetch :
    (∃ t, step (testProgram [0x20010001#32] true) = .next t) ∧ Fetchable (testProgram [0x20010001#32] true)
      ∧ (testProgram [0x20010001#32] true).debug = true
      ∧ (∃ t, step (testProgram [0x20010001#32] false) = .next t)
      ∧ ¬ (Fetchable (testProgram [0x20010001#32] false) ∧ (testProgram [0x20010001#32] false).debug = true) :=
  ⟨⟨_, rfl⟩, ⟨by decide, by decide⟩, by decide, ⟨_, rfl⟩, fun h => absurd h.2 (by decide)⟩

theorem witness_StepKeepsMemoryCanonical :
    MemoryCanonical (testProgram [0xAC010010#32] false) ∧ ∃ t, step (testProgram [0xAC010010#32] false) = .next t :=
  ⟨⟨by decide, by decide⟩, _, rfl⟩

/-- A true trace that is not empty, after the first step of S10. -/
theorem witness_StepKeepsTraceTrue :
    let s : State := { testProgram [0x20010001#32, 0x20020002#32] true with ip := 4, trace := [⟨0, 0x20010001⟩] }
    TraceTrue s ∧ ∃ t, step s = .next t := by
  refine ⟨⟨?_, ?_⟩, _, rfl⟩
  · intro e he
    cases List.mem_singleton.mp he
    decide
  · intro h; cases h

/-- An allowed launch, at the greatest data memory; a program and a data memory one step too large. -/
theorem witness_LaunchStartsOrRefuses :
    bareLaunch.wellFormed = true ∧ bareLaunch.dmemSize = 2 ^ 32
      ∧ (∃ l : Launch, l.dmemSize = 0x100 ∧ 0xFFFFFFFC < 4 * l.imem.length)
      ∧ 2 ^ 32 < ({ bareLaunch with dmemSize := 2 ^ 32 + 1 } : Launch).dmemSize := by
  have key : ∃ ws : List Word, 0xFFFFFFFC < 4 * ws.length := by
    obtain ⟨n, hn⟩ : ∃ n : Nat, n = 0x40000000 := ⟨_, rfl⟩
    exact ⟨List.replicate n 0#32, by rw [List.length_replicate]; omega⟩
  obtain ⟨ws, h⟩ := key
  exact ⟨by decide, by decide, ⟨{ bareLaunch with dmemSize := 0x100, imem := ws }, rfl, h⟩, by decide⟩

/-- A launch with a start state; a run that is Running after one step of S10 and one that has ended after the third. -/
theorem witness_RunResultIsExplained :
    launch bareLaunch = .next State.reset
      ∧ (runFor 1 (testProgram [0x20010001#32, 0x20020002#32] false)).status = .running
      ∧ (runFor 3 (testProgram [0x20010001#32, 0x20020002#32] false)).status ≠ .running :=
  ⟨rfl, by decide, by decide⟩

/-- The program of S10. -/
theorem witness_StraightLineRunHalts :
    (testProgram [0x20010001#32, 0x20020002#32] false).status = .running
      ∧ (testProgram [0x20010001#32, 0x20020002#32] false).ip = 0#32
      ∧ (testProgram [0x20010001#32, 0x20020002#32] false).imemSize ≤ 0xFFFFFFFC
      ∧ ∀ w ∈ (testProgram [0x20010001#32, 0x20020002#32] false).imem, ∃ i, decode w = .ok i ∧ leavesStraightLine i = false := by
  refine ⟨by decide, by decide, by decide, ?_⟩
  intro w hw
  rcases List.mem_cons.mp hw with rfl | hw
  · exact ⟨.addi 0 1 1, by decide, by decide⟩
  · cases List.mem_singleton.mp hw
    exact ⟨.addi 0 2 2, by decide, by decide⟩

end Sys2Proof.Machine
end

/-! Proofs of the family 10_state.md: register 0 is ordinary (spec/10_state.md R14). -/

namespace Sys2Proof.Machine

/-- The whole effect of `ori`, for every base and destination register, register 0 included (R86). -/
theorem exec_ori_writesRegister (rs rt : RegIx) (imm16 : Imm16) (s : State) :
    ∃ t, exec (.ori rs rt imm16) s = .next t ∧ WritesRegister rt (s.reg rs ||| zext imm16) s t :=
  exec_writesRegister rfl rfl rfl rfl rfl rfl rfl rfl

/-- Settles O30: the accessor laws of `setReg` hold at register 0 as at any other, and `ori` with immediate 0 copies what the
first `ori` stored in register 0. -/
theorem registerZeroIsOrdinary : Obligations.RegisterZeroIsOrdinary := by
  refine ⟨fun s v => ⟨setReg_reg_self s 0 v, fun _ hr => setReg_reg_ne s v hr⟩, fun rs imm16 s => ?_⟩
  obtain ⟨t, ht, hwrite, _⟩ := exec_ori_writesRegister rs 0 imm16 s
  obtain ⟨u, hu, hread, _⟩ := exec_ori_writesRegister 0 rs 0 t
  refine ⟨t, u, ht, hwrite, hu, ?_⟩
  calc u.reg rs = t.reg 0 ||| zext (0 : Imm16) := hread
    _ = t.reg 0 := by simp
    _ = s.reg rs ||| zext imm16 := hwrite

end Sys2Proof.Machine

/-! Proofs of the family 30_encoding.md: the Instruction record of a word (spec/30_encoding.md R44) and the control unit's row for
it (R48, R50). -/

namespace Sys2Proof.Machine

/-! ## The decoder of instructions and the control unit -/

/-- The control unit answers the row of the instruction a register-format record stands for, or its abort. -/
theorem derive_eq_map_decodeRFormat (F : Fields) (ign : Ignored) :
    derive 0x00#6 F.funct = (decodeRFormat F ign).map rowOf := by
  unfold decodeRFormat
  split
  case h_11 => simp_all [derive, Except.map] -- no funct of the list: both abort with it
  all_goals rename_i hfunct; rw [hfunct]; rfl

/-- The control unit answers the row of the instruction a record stands for, or its abort (R50, R51). -/
theorem derive_eq_map_decodeRecord (F : Fields) (ign : Ignored) :
    derive F.opcode F.funct = (decodeRecord F ign).map rowOf := by
  unfold decodeRecord
  split
  case h_1 hop => rw [hop, derive_eq_map_decodeRFormat F ign]
  case h_16 => simp_all [derive, Except.map] -- no opcode of the list: both abort with it
  all_goals rename_i hop; rw [hop]; rfl

/-- The control unit answers the row of the instruction a word decodes to, or the abort the word raises. -/
theorem derive_eq_map_decode (w : Word) :
    derive (decodeFields w).opcode (decodeFields w).funct = (decode w).map rowOf :=
  derive_eq_map_decodeRecord (decodeFields w) (ignoredBits w)

theorem derive_of_decode {w : Word} {i : Instr} (h : decode w = .ok i) :
    derive (decodeFields w).opcode (decodeFields w).funct = .ok (rowOf i) := by
  rw [derive_eq_map_decode, h]; rfl

theorem decode_error_iff_derive_error (w : Word) (e : DecodeAbort) :
    decode w = .error e ↔ derive (decodeFields w).opcode (decodeFields w).funct = .error e := by
  rw [derive_eq_map_decode]
  cases decode w <;> simp [Except.map]

/-- The rows of Decode.lean and the lines of the second transcription are the same vectors. -/
theorem rowOf_eq_signalTable (i : Instr) : rowOf i = signalTable i := by cases i <;> rfl

/-- Settles O6: the control unit answers `rowOf i`, which is the line of the table. -/
theorem signalTableReproduced : Obligations.SignalTableReproduced := by
  intro w i h
  rw [derive_of_decode h, rowOf_eq_signalTable]

/-! ## The record of a word that decodes is the record its instruction runs with -/

theorem encode_of_decodeRFormat {F : Fields} {ign : Ignored} {i : Instr} (h : decodeRFormat F ign = .ok i) :
    encode i = encodeR F.funct F.rs F.rt F.rd ign := by
  unfold decodeRFormat at h
  split at h <;> cases h <;> simp only [encode, *]

theorem encode_of_decode {w : Word} {i : Instr} (h : decode w = .ok i) : encode i = w := by
  unfold decode decodeRecord at h
  split at h
  case h_1 hop => rw [encode_of_decodeRFormat h, encodeR_decodeFields w hop]
  case h_2 hop => cases h; rw [encode, ← hop, encodeJ_decodeFields]
  case h_16 => cases h
  all_goals cases h; rename_i hop; rw [encode, ← hop, encodeI_decodeFields]

theorem decodeFields_of_decode {w : Word} {i : Instr} (h : decode w = .ok i) : decodeFields w = recordOf i := by
  rw [← encode_of_decode h]; exact (fieldsOfEncode_all i).1

/-- What a decoded instruction does is decided by the control vector and the record of its word (R63). -/
theorem exec_of_decode {w : Word} {i : Instr} (h : decode w = .ok i) (s : State) :
    exec i s = datapath (rowOf i) (decodeFields w) s := by
  rw [exec_eq_datapath, decodeFields_of_decode h]

/-! ## The fields as numbers (R44) -/

/-- A field of a word is a quotient and a remainder of the word's number. -/
theorem toNat_extractLsb'_eq_div_mod (w : Word) (start len : Nat) :
    (w.extractLsb' start len).toNat = w.toNat / 2 ^ start % 2 ^ len := by
  rw [BitVec.extractLsb'_toNat, Nat.shiftRight_eq_div_pow]

/-- The opcode is the top field, so no remainder is taken. -/
theorem decodeFields_opcode_toNat (w : Word) : (decodeFields w).opcode.toNat = w.toNat / 2 ^ 26 := by
  have hlt := w.isLt
  calc (decodeFields w).opcode.toNat = w.toNat / 2 ^ 26 % 2 ^ 6 := toNat_extractLsb'_eq_div_mod w 26 6
    _ = w.toNat / 2 ^ 26 := by omega

/-- In every word `rd` is a part of the immediate (90 C2). -/
theorem decodeFields_rd_eq_imm16 (w : Word) : (decodeFields w).rd = (decodeFields w).imm16.extractLsb' 11 5 := by
  ext k hk
  simp [decodeFields]

/-! ## Bits 10–6 of a register-format word influence nothing -/

/-- A field that holds none of bits 10–6 is the same in two words that differ only there. -/
theorem AgreeOffIgnored.extractLsb'_eq {w w' : Word} (h : AgreeOffIgnored w w') (start len : Nat)
    (hout : start + len ≤ 6 ∨ 10 < start) : w.extractLsb' start len = w'.extractLsb' start len := by
  ext k hk
  rw [BitVec.getElem_extractLsb', BitVec.getElem_extractLsb', h (start + k) (by omega)]

theorem decode_of_opcode_zero {w : Word} (hop : (decodeFields w).opcode = 0x00#6) :
    decode w = decodeRFormat (decodeFields w) (ignoredBits w) := by
  simp only [decode, decodeRecord, hop]

/-- The rows under opcode 0 read no immediate and move `ip` by 4 (R48). -/
theorem rowOf_of_decodeRFormat {F : Fields} {ign : Ignored} {i : Instr} (h : decodeRFormat F ign = .ok i) :
    (rowOf i).regDst = true ∧ (rowOf i).branch = false ∧ (rowOf i).jump = false := by
  unfold decodeRFormat at h
  split at h <;> cases h <;> exact ⟨rfl, rfl, rfl⟩

/-- A vector that takes input 2 from a register and neither branches nor jumps reads only `rs`, `rt` and `rd` of the record. -/
theorem datapath_congr_registers {C : ControlBits} (hC : C.regDst = true ∧ C.branch = false ∧ C.jump = false) {F F' : Fields}
    (hrs : F.rs = F'.rs) (hrt : F.rt = F'.rt) (hrd : F.rd = F'.rd) (s : State) : datapath C F s = datapath C F' s := by
  obtain ⟨hdst, hbranch, hjump⟩ := hC
  have halu : aluStage C F s = aluStage C F' s := by simp only [aluStage, aluIn1, aluIn2, hdst, if_true, hrs, hrt]
  have hmem (a : Word) : memStage C F a s = memStage C F' a s := by
    simp only [memStage, memWriteStage, storedByte, storeOperand, hrt]
  have hwrite (r : Word) (m : Option Word) (t : State) : writeBack C F r m t = writeBack C F' r m t := by
    simp only [writeBack, destination, hdst, if_true, hrd]
  have hip (z : Bool) (t : State) : pcUpdate C F z t = pcUpdate C F' z t := by simp [pcUpdate, nextIp, hbranch, hjump]
  simp only [datapath, halu, hmem, hwrite, hip]

/-- Settles O5: two register-format words that agree off bits 10–6 have the same fields but for the immediate and the address, so
the control unit answers them alike, and a register-format row reads neither of those two. -/
theorem decoderRecordOfEveryWord : Obligations.DecoderRecordOfEveryWord := by
  refine ⟨fun w => ?_, fun w w' hop hagree => ?_, fun w i s hdec => ?_⟩
  · exact ⟨decodeFields_opcode_toNat w, toNat_extractLsb'_eq_div_mod w 21 5, toNat_extractLsb'_eq_div_mod w 16 5,
      toNat_extractLsb'_eq_div_mod w 11 5, BitVec.extractLsb'_toNat .., BitVec.extractLsb'_toNat ..,
      BitVec.extractLsb'_toNat .., decodeFields_rd_eq_imm16 w⟩
  · have hopcode : (decodeFields w).opcode = (decodeFields w').opcode := hagree.extractLsb'_eq 26 6 (by decide)
    have hrs : (decodeFields w).rs = (decodeFields w').rs := hagree.extractLsb'_eq 21 5 (by decide)
    have hrt : (decodeFields w).rt = (decodeFields w').rt := hagree.extractLsb'_eq 16 5 (by decide)
    have hrd : (decodeFields w).rd = (decodeFields w').rd := hagree.extractLsb'_eq 11 5 (by decide)
    have hfunct : (decodeFields w).funct = (decodeFields w').funct := hagree.extractLsb'_eq 0 6 (by decide)
    refine ⟨fun e => ?_, fun i i' hdec hdec' s => ?_⟩
    · rw [decode_error_iff_derive_error, decode_error_iff_derive_error, hopcode, hfunct]
    · have hrow : rowOf i = rowOf i' := by
        apply Except.ok.inj (ε := DecodeAbort)
        rw [← derive_of_decode hdec, ← derive_of_decode hdec', hopcode, hfunct]
      have hsignals := rowOf_of_decodeRFormat ((decode_of_opcode_zero hop).symm.trans hdec)
      calc exec i s = datapath (rowOf i) (decodeFields w) s := exec_of_decode hdec s
        _ = datapath (rowOf i) (decodeFields w') s := datapath_congr_registers hsignals hrs hrt hrd s
        _ = datapath (rowOf i') (decodeFields w') s := by rw [hrow]
        _ = exec i' s := (exec_of_decode hdec' s).symm
  · exact ⟨rowOf i, derive_of_decode hdec, exec_of_decode hdec s⟩

end Sys2Proof.Machine

/-! Proofs of the family 40_datapath.md: the ALU stage (spec/40_datapath.md R56, R58, R59), write-back (R61) and the
program-counter update (R62). -/

namespace Sys2Proof.Machine

/-! ## ALU and flag -/

theorem zeroFlag_eq_true_iff (result : Word) : zeroFlag result = true ↔ result = 0#32 := beq_iff_eq

/-- Settles O8: `bnegate` acts on input 2 alone, and `neg` is the two's complement. -/
theorem bnegateNegatesInput2 : Obligations.BnegateNegatesInput2 := by
  refine ⟨fun _ _ _ => rfl, fun v => ?_, by decide, by decide⟩
  rw [neg_eq_neg, BitVec.toNat_neg]

/-- Settles O9: `execute` computes its flag on the result it gives. -/
theorem zeroOutputIffResultZero : Obligations.ZeroOutputIffResultZero :=
  ⟨fun _ _ _ _ => zeroFlag_eq_true_iff _, by decide, by decide, by decide, by decide⟩

theorem aluStage_of_notRes_false {C : ControlBits} (h : C.notRes = false) (F : Fields) (s : State) :
    aluStage C F s = aluExecute C.aluOp (aluIn1 F s) (aluIn2 C F s) C.aluBnegate := by
  simp [aluStage, invert, h]

theorem aluStage_of_notRes_true {C : ControlBits} (h : C.notRes = true) (F : Fields) (s : State) :
    aluStage C F s = (~~~(aluExecute C.aluOp (aluIn1 F s) (aluIn2 C F s) C.aluBnegate).1,
      !(aluExecute C.aluOp (aluIn1 F s) (aluIn2 C F s) C.aluBnegate).2) := by
  simp [aluStage, invert, h]

/-- Of the rows of the signal table, those of `nor` and `beq` have `not_res` (R48). -/
theorem rowOf_notRes_iff (i : Instr) :
    (rowOf i).notRes = true ↔ (∃ rs rt rd ign, i = .nor rs rt rd ign) ∨ ∃ rs rt imm16, i = .beq rs rt imm16 := by
  constructor
  · intro h
    cases i
    case nor rs rt rd ign => exact .inl ⟨rs, rt, rd, ign, rfl⟩
    case beq rs rt imm16 => exact .inr ⟨rs, rt, imm16, rfl⟩
    all_goals cases h
  · rintro (⟨_, _, _, _, rfl⟩ | ⟨_, _, _, rfl⟩) <;> rfl

/-- Settles O10: the inverted flag is the negation of the zero output (O9), and the control unit answers a decoded word with the
row of its instruction. -/
theorem notResInvertsResultAndFlag : Obligations.NotResInvertsResultAndFlag := by
  refine ⟨fun C F s => ⟨fun h => aluStage_of_notRes_false h F s, fun h => ?_⟩, by decide, by decide, fun w i C hdec hrow => ?_⟩
  · rw [aluStage_of_notRes_true h]
    refine ⟨rfl, ?_⟩
    rw [Bool.not_eq_true', Bool.eq_false_iff]
    exact not_congr (zeroFlag_eq_true_iff _)
  · obtain rfl : rowOf i = C := Except.ok.inj ((derive_of_decode hdec).symm.trans hrow)
    exact rowOf_notRes_iff i

/-! ## Write-back -/

theorem writeBack_of_regWrite_false {C : ControlBits} (h : C.regWrite = false) (F : Fields) (r : Word) (m : Option Word) (s : State) :
    writeBack C F r m s = s := by
  simp [writeBack, h]

/-- With `reg_write`, the selected value goes to the destination register. -/
theorem writeBack_eq_setReg {C : ControlBits} {r v : Word} {m : Option Word} (h : C.regWrite = true)
    (hmem : C.memToReg = true → m = some v) (halu : C.memToReg = false → v = r) (F : Fields) (s : State) :
    writeBack C F r m s = s.setReg (destination C F) v := by
  cases hsel : C.memToReg with
  | true => simp [writeBack, h, hsel, hmem hsel]
  | false => simp [writeBack, h, hsel, halu hsel]

/-- Every vector the control unit answers is the row of an instruction. -/
theorem exists_rowOf_of_derive {op : Opcode} {f : Funct} {C : ControlBits} (h : derive op f = .ok C) : ∃ i, rowOf i = C := by
  obtain ⟨F, rfl, rfl⟩ : ∃ F : Fields, F.opcode = op ∧ F.funct = f := ⟨⟨op, 0, 0, 0, f, 0, 0⟩, rfl, rfl⟩
  rw [derive_eq_map_decodeRecord F 0] at h
  cases hdec : decodeRecord F 0 with
  | error e => rw [hdec] at h; cases h
  | ok i => rw [hdec] at h; exact ⟨i, Except.ok.inj h⟩

/-- Only the loads select the memory value, and they read memory (R48). -/
theorem rowOf_memRead_of_memToReg (i : Instr) (h : (rowOf i).memToReg = true) : (rowOf i).memRead = true := by
  cases i
  case lb => rfl
  case lw => rfl
  all_goals cases h

/-- Settles O13: what write-back does is `setReg` at the destination, so the accessor laws give the value and the frame. -/
theorem writeBackCommits : Obligations.WriteBackCommits := by
  refine ⟨fun C F r m s => ⟨fun h => writeBack_of_regWrite_false h F r m s, fun v h hmem halu => ?_⟩, fun op f C hrow => ?_⟩
  · rw [writeBack_eq_setReg h hmem halu F s]
    exact ⟨setReg_reg_self .., fun _ hne => setReg_reg_ne s v hne, fun _ => rfl, rfl, ⟨rfl, rfl, rfl, rfl⟩, rfl, rfl⟩
  · obtain ⟨i, rfl⟩ := exists_rowOf_of_derive hrow
    exact rowOf_memRead_of_memToReg i

/-! ## Program counter -/

theorem nextIp_of_branch {C : ControlBits} {z : Bool} (hbranch : C.branch = true) (hz : z = true) (F : Fields) (ip : Word) :
    nextIp C F z ip = branchTarget ip F.imm16 := by
  simp [nextIp, hbranch, hz]

theorem nextIp_of_jump {C : ControlBits} {z : Bool} (hbranch : ¬ (C.branch = true ∧ z = true)) (hjump : C.jump = true) (F : Fields)
    (ip : Word) : nextIp C F z ip = jumpTarget ip F.addr := by
  rw [nextIp, if_neg (by rwa [Bool.and_eq_true]), if_pos hjump]

theorem nextIp_of_sequential {C : ControlBits} {z : Bool} (hbranch : ¬ (C.branch = true ∧ z = true)) (hjump : C.jump = false)
    (F : Fields) (ip : Word) : nextIp C F z ip = ip + 4#32 := by
  rw [nextIp, if_neg (by rwa [Bool.and_eq_true]), hjump, if_neg Bool.false_ne_true]

/-- A field that the mask of a target keeps: the value is ORed into it. -/
theorem extractLsb'_of_mask_kept {n start len : Nat} {mask : Word} (hmask : mask.extractLsb' start len = BitVec.allOnes len)
    (hin : start + len ≤ 32) (ip : Word) (v : BitVec n) :
    ((ip &&& mask) ||| zext v).extractLsb' start len = ip.extractLsb' start len ||| v.extractLsb' start len := by
  rw [BitVec.extractLsb'_or, BitVec.extractLsb'_and, hmask, BitVec.and_allOnes, BitVec.extractLsb'_setWidth_of_le hin]

/-- A field that the mask of a target clears: the value replaces it. -/
theorem extractLsb'_of_mask_cleared {n start len : Nat} {mask : Word} (hmask : mask.extractLsb' start len = 0#len)
    (hin : start + len ≤ 32) (ip : Word) (v : BitVec n) :
    ((ip &&& mask) ||| zext v).extractLsb' start len = v.extractLsb' start len := by
  rw [BitVec.extractLsb'_or, BitVec.extractLsb'_and, hmask, BitVec.and_zero, BitVec.zero_or,
    BitVec.extractLsb'_setWidth_of_le hin]

/-- A field above a value's bits is 0. -/
theorem extractLsb'_of_width_le {n start : Nat} (h : n ≤ start) (v : BitVec n) (len : Nat) : v.extractLsb' start len = 0#len := by
  ext k hk
  rw [BitVec.getElem_extractLsb', BitVec.getLsbD_of_ge v (start + k) (by omega), BitVec.getElem_zero]

theorem branchTarget_high (ip : Word) (imm16 : Imm16) : (branchTarget ip imm16).extractLsb' 16 16 = ip.extractLsb' 16 16 := by
  rw [branchTarget, extractLsb'_of_mask_kept (by decide) (by decide), extractLsb'_of_width_le (by decide) imm16, BitVec.or_zero]

theorem branchTarget_low (ip : Word) (imm16 : Imm16) : (branchTarget ip imm16).extractLsb' 0 16 = imm16 := by
  rw [branchTarget, extractLsb'_of_mask_cleared (by decide) (by decide), BitVec.extractLsb'_eq_self]

theorem jumpTarget_high (ip : Word) (addr : Addr26) : (jumpTarget ip addr).extractLsb' 26 6 = ip.extractLsb' 26 6 := by
  rw [jumpTarget, extractLsb'_of_mask_kept (by decide) (by decide), extractLsb'_of_width_le (by decide) addr, BitVec.or_zero]

/-- Bits 25 and 24 are kept by the mask and held by `addr` too (R62). -/
theorem jumpTarget_overlap (ip : Word) (addr : Addr26) :
    (jumpTarget ip addr).extractLsb' 24 2 = ip.extractLsb' 24 2 ||| addr.extractLsb' 24 2 :=
  extractLsb'_of_mask_kept (by decide) (by decide) ip addr

theorem jumpTarget_low (ip : Word) (addr : Addr26) : (jumpTarget ip addr).extractLsb' 0 24 = addr.extractLsb' 0 24 :=
  extractLsb'_of_mask_cleared (by decide) (by decide) ip addr

/-- A running state at a fetchable word that decodes runs that word's instruction (R63). -/
theorem step_eq_exec {s : State} {i : Instr} (hrun : s.status = .running) (hfetch : Fetchable s)
    (hdec : decode (s.iFetch s.ip) = .ok i) : step s = exec i (s.emitTrace (s.iFetch s.ip)) := by
  obtain ⟨hrange, haligned⟩ := hfetch
  simp [step, fetchDecode, hrun, Nat.not_le.mpr hrange, haligned, hdec]

/-- Settles O14: `pcUpdate` replaces `ip` by the target its priority selects, and the next cycle fetches at that `ip`. -/
theorem programCounterUpdate : Obligations.ProgramCounterUpdate := by
  refine ⟨fun C F z s => ⟨fun hbranch hz => ?_, fun hbranch hjump => ?_, fun hbranch hjump => ?_,
      fun _ => rfl, fun _ => rfl, ⟨rfl, rfl, rfl, rfl⟩, rfl, rfl⟩,
    by decide, by decide, fun _ _ _ _ _ => step_eq_exec⟩
  · rw [pcUpdate_ip, nextIp_of_branch hbranch hz]
    exact ⟨rfl, branchTarget_high .., branchTarget_low ..⟩
  · rw [pcUpdate_ip, nextIp_of_jump hbranch hjump]
    exact ⟨rfl, jumpTarget_high .., jumpTarget_overlap .., jumpTarget_low ..⟩
  · rw [pcUpdate_ip, nextIp_of_sequential hbranch hjump]

end Sys2Proof.Machine

/-! Proofs of the family other, the encoding: decode and encode are inverse (spec/30_encoding.md §1, §2), and which words abort
(R51, R93). -/

namespace Sys2Proof.Machine

/-! ## Decode and encode -/

/-- The record and the ignored bits of an instruction's word stand for that instruction. Only a register-format word has ignored
bits, so only there they are read back. -/
theorem decodeRecord_recordOf (i : Instr) : decodeRecord (recordOf i) (ignoredBits (encode i)) = .ok i := by
  cases i
  case j | beq | bne | addi | addiu | slti | sltiu | andi | ori | lui | lb | lw | sb | sw => rfl
  all_goals rw [encode, ignoredBits_encodeR]; rfl

/-- Settles O2: the decoder extracts from an instruction's word the instruction's record, ignored bits included. -/
theorem decodeOfEncode : Obligations.DecodeOfEncode := by
  intro i
  rw [decode, (fieldsOfEncode_all i).1, decodeRecord_recordOf]

/-- Settles O3: the word is rebuilt from its fields, format by format. -/
theorem encodeOfDecode : Obligations.EncodeOfDecode := fun _ _ => encode_of_decode

/-! ## The words that abort -/

/-- A register-format word aborts exactly at an unsupported funct, with that funct (R51, R93). -/
theorem decodeRFormat_error_iff (F : Fields) (ign : Ignored) (e : DecodeAbort) :
    decodeRFormat F ign = .error e ↔ F.funct.toNat ∉ supportedFuncts ∧ e = ⟨.unsupportedFunct, F.funct⟩ := by
  unfold decodeRFormat
  split
  case h_11 => -- no funct of the list
    have hout : F.funct.toNat ∉ supportedFuncts := by simp_all [supportedFuncts, BitVec.toNat_eq]
    simp [hout, eq_comm]
  all_goals rename_i hfunct; simp [hfunct, supportedFuncts]

/-- A record aborts at an unsupported opcode, or at opcode 0 and an unsupported funct (R51, R93). -/
theorem decodeRecord_error_iff (F : Fields) (ign : Ignored) (e : DecodeAbort) :
    decodeRecord F ign = .error e ↔
      (F.opcode.toNat ∉ supportedOpcodes ∧ e = ⟨.unsupportedOpcode, F.opcode⟩)
      ∨ (F.opcode = 0#6 ∧ F.funct.toNat ∉ supportedFuncts ∧ e = ⟨.unsupportedFunct, F.funct⟩) := by
  unfold decodeRecord
  split
  case h_1 hop => simp [decodeRFormat_error_iff, hop, supportedOpcodes]
  case h_16 => -- no opcode of the list
    have hout : F.opcode.toNat ∉ supportedOpcodes := by simp_all [supportedOpcodes, BitVec.toNat_eq]
    have hne : F.opcode ≠ 0#6 := by assumption
    simp [hout, hne, eq_comm]
  all_goals rename_i hop; simp [hop, supportedOpcodes]

theorem decode_unsupportedOpcode_iff (w : Word) (c : BitVec 6) :
    decode w = .error ⟨.unsupportedOpcode, c⟩ ↔ c = w.extractLsb' 26 6 ∧ c.toNat ∉ supportedOpcodes := by
  rw [decode, decodeRecord_error_iff]
  simp only [decodeFields, DecodeAbort.mk.injEq, reduceCtorEq, true_and, false_and, and_false, or_false]
  rw [and_comm]
  exact and_congr_right fun hc => by rw [hc]

theorem decode_unsupportedFunct_iff (w : Word) (c : BitVec 6) :
    decode w = .error ⟨.unsupportedFunct, c⟩ ↔
      w.extractLsb' 26 6 = 0#6 ∧ c = w.extractLsb' 0 6 ∧ c.toNat ∉ supportedFuncts := by
  rw [decode, decodeRecord_error_iff]
  simp only [decodeFields, DecodeAbort.mk.injEq, reduceCtorEq, true_and, false_and, and_false, false_or]
  refine and_congr_right fun _ => ?_
  rw [and_comm]
  exact and_congr_right fun hc => by rw [hc]

theorem decode_ok_iff_no_error (w : Word) : (∃ i, decode w = .ok i) ↔ ∀ e, decode w ≠ .error e := by
  cases decode w <;> simp

/-- Settles O4: a word decodes when neither abort is raised, and the two aborts are the two ways a record is rejected. -/
theorem unsupportedWordsAbort : Obligations.UnsupportedWordsAbort := by
  intro w
  refine ⟨decode_unsupportedOpcode_iff w, decode_unsupportedFunct_iff w, ?_⟩
  have hopcode : (w.extractLsb' 26 6).toNat = w.toNat / 2 ^ 26 := decodeFields_opcode_toNat w
  have hfunct : (w.extractLsb' 0 6).toNat = w.toNat % 2 ^ 6 := BitVec.extractLsb'_toNat ..
  have hzero : (w.extractLsb' 26 6).toNat = 0 ↔ w.extractLsb' 26 6 = 0#6 := by rw [BitVec.toNat_eq]; rfl
  rw [decode_ok_iff_no_error, ← hopcode, ← hfunct, hzero]
  constructor
  · intro hok
    refine ⟨?_, fun hop => ?_⟩
    · by_contra hout
      exact hok _ ((decode_unsupportedOpcode_iff w _).2 ⟨rfl, hout⟩)
    · by_contra hout
      exact hok _ ((decode_unsupportedFunct_iff w _).2 ⟨hop, rfl, hout⟩)
  · rintro ⟨hop, hf⟩ ⟨_ | _, c⟩ herr
    · obtain ⟨rfl, hout⟩ := (decode_unsupportedOpcode_iff w c).1 herr
      exact hout hop
    · obtain ⟨h0, rfl, hout⟩ := (decode_unsupportedFunct_iff w c).1 herr
      exact hout (hf h0)

/-- Under an opcode that is not 0 the control unit does not look at the funct (R50). -/
theorem derive_eq_of_opcode_ne_zero {op : Opcode} (h : op ≠ 0#6) (f g : Funct) : derive op f = derive op g := by
  unfold derive
  split
  case h_1 => exact absurd rfl h
  all_goals rfl

/-- Settles O7: the control unit answers the row of what the decoder answers, so both abort alike. -/
theorem controlUnitRejectsSameWords : Obligations.ControlUnitRejectsSameWords :=
  ⟨decode_error_iff_derive_error, fun _ f g h => derive_eq_of_opcode_ne_zero h f g⟩

/-- Settles O1: fifteen words of the spec, each decoded. -/
theorem sampleWordsDecode : Obligations.SampleWordsDecode := by
  unfold Obligations.SampleWordsDecode
  decide

end Sys2Proof.Machine

/-! Proofs of the family other, renaming and non-interference: maps of states that every stage of the datapath respects. Two
such maps: a renaming of the registers (spec/10_state.md §2), and the state without its debug output (spec/40_datapath.md R65). -/

namespace Sys2Proof.Machine

/-! ## Maps of states that the datapath respects -/

/-- The record with its three register fields renamed. -/
def renameFields (p : RegIx → RegIx) (F : Fields) : Fields := { F with rs := p F.rs, rt := p F.rt, rd := p F.rd }

/-- `g` maps states and `p` registers so that every access to the state means the same before and after. -/
structure RespectsAccess (g : State → State) (p : RegIx → RegIx) : Prop where
  reg : ∀ s r, (g s).reg (p r) = s.reg r
  ip : ∀ s, (g s).ip = s.ip
  dmem : ∀ s, (g s).dmem = s.dmem
  dmemSize : ∀ s, (g s).dmemSize = s.dmemSize
  endian : ∀ s, (g s).endian = s.endian
  setReg : ∀ s r v, g (s.setReg r v) = (g s).setReg (p r) v
  setIp : ∀ s a, g (s.setIp a) = (g s).setIp a
  setByteAt : ∀ s a v, g (s.setByteAt a v) = (g s).setByteAt a v
  endRun : ∀ s st, g (s.endRun st) = (g s).endRun st

namespace RespectsAccess

variable {g : State → State} {p : RegIx → RegIx}

theorem byteFault (h : RespectsAccess g p) (s : State) (a : Word) : byteFault (g s) a = byteFault s a := by
  simp only [Machine.byteFault, h.dmemSize]

theorem wordFault (h : RespectsAccess g p) (s : State) (a : Word) : wordFault (g s) a = wordFault s a := by
  simp only [Machine.wordFault, h.dmemSize]

theorem byteAt (h : RespectsAccess g p) (s : State) (a : Nat) : (g s).byteAt a = s.byteAt a := by
  simp only [State.byteAt, h.dmem]

theorem setWordAt (h : RespectsAccess g p) (s : State) (a : Nat) (v : Word) : g (s.setWordAt a v) = (g s).setWordAt a v := by
  simp only [State.setWordAt, h.endian, h.setByteAt]

theorem aluStage (h : RespectsAccess g p) (C : ControlBits) (F : Fields) (s : State) :
    aluStage C (renameFields p F) (g s) = aluStage C F s := by
  have hin1 : aluIn1 (renameFields p F) (g s) = aluIn1 F s := h.reg s F.rs
  have hin2 : aluIn2 C (renameFields p F) (g s) = aluIn2 C F s := by
    unfold aluIn2; rw [show (renameFields p F).rt = p F.rt from rfl, h.reg]; rfl
  simp only [Machine.aluStage, hin1, hin2]

theorem memWriteStage (h : RespectsAccess g p) (C : ControlBits) (F : Fields) (a : Word) (s : State) :
    memWriteStage C (renameFields p F) a (g s) = (memWriteStage C F a s).map g := by
  have hv : storeOperand (renameFields p F) (g s) = storeOperand F s := h.reg s F.rt
  unfold Machine.memWriteStage
  split
  · split
    · unfold writeByte
      rw [h.byteFault, storedByte, hv]
      split
      · rfl
      · rw [← h.setByteAt]; rfl
    · unfold writeWord
      rw [h.wordFault, hv]
      split
      · rfl
      · rw [← h.setWordAt]; rfl
  · rfl

theorem memReadStage (h : RespectsAccess g p) (C : ControlBits) (a : Word) (s : State) :
    memReadStage C a (g s) = memReadStage C a s := by
  simp only [Machine.memReadStage, readByte, readWord, h.byteFault, h.wordFault, h.byteAt, h.endian]

theorem memStage (h : RespectsAccess g p) (C : ControlBits) (F : Fields) (a : Word) (s : State) :
    memStage C (renameFields p F) a (g s) = (memStage C F a s).map (Prod.map g id) := by
  unfold Machine.memStage
  rw [h.memWriteStage]
  cases Machine.memWriteStage C F a s with
  | error f => rfl
  | ok s1 =>
    simp only [Except.map, h.memReadStage]
    cases Machine.memReadStage C a s1 <;> rfl

theorem writeBack (h : RespectsAccess g p) (C : ControlBits) (F : Fields) (r : Word) (m : Option Word) (s : State) :
    writeBack C (renameFields p F) r m (g s) = g (writeBack C F r m s) := by
  have hd : destination C (renameFields p F) = p (destination C F) := by
    unfold destination; split <;> rfl
  unfold Machine.writeBack
  split
  · rw [hd]
    split
    · rw [h.setReg]
    · rfl
  · rfl

theorem pcUpdate (h : RespectsAccess g p) (C : ControlBits) (F : Fields) (z : Bool) (s : State) :
    pcUpdate C (renameFields p F) z (g s) = g (pcUpdate C F z s) := by
  unfold Machine.pcUpdate
  rw [h.setIp, h.ip]; rfl

/-- The datapath on the mapped state answers the mapped next state. -/
theorem datapath (h : RespectsAccess g p) {C : ControlBits} {F : Fields} {s t : State} (hnext : datapath C F s = .next t) :
    datapath C (renameFields p F) (g s) = .next (g t) := by
  obtain ⟨f, hm, hd⟩ | ⟨s1, m, hm, hd⟩ := datapath_cases C F s
  · obtain rfl : s.endRun _ = t := Host.Outcome.next.inj (hd.symm.trans hnext)
    rw [Machine.datapath, h.aluStage, h.memStage, hm, h.endRun]; rfl
  · obtain rfl := Host.Outcome.next.inj (hd.symm.trans hnext)
    rw [Machine.datapath, h.aluStage, h.memStage, hm, ← h.pcUpdate, ← h.writeBack]; rfl

end RespectsAccess

/-- The datapath answers a next state for every vector, record and state (R67). -/
theorem datapath_next (C : ControlBits) (F : Fields) (s : State) : ∃ t, datapath C F s = .next t := by
  obtain ⟨f, _, h⟩ | ⟨s1, m, _, h⟩ := datapath_cases C F s <;> exact ⟨_, h⟩

/-! ## Renaming registers -/

/-- The state with the registers renamed by `p`: the register `p r` holds what `r` held. -/
def State.rename (p : Equiv.Perm RegIx) (s : State) : State :=
  { s with regs := Vector.ofFn fun k => s.reg (p.symm (BitVec.ofFin k)) }

section Rename

variable (p : Equiv.Perm RegIx) (s : State)

theorem rename_reg (r : RegIx) : (s.rename p).reg r = s.reg (p.symm r) := by simp [State.rename, State.reg]

@[simp] theorem rename_ip : (s.rename p).ip = s.ip := by rw [State.rename]

@[simp] theorem rename_dmem : (s.rename p).dmem = s.dmem := by rw [State.rename]

@[simp] theorem rename_status : (s.rename p).status = s.status := by rw [State.rename]

@[simp] theorem rename_imem : (s.rename p).imem = s.imem := by rw [State.rename]

@[simp] theorem rename_dmemSize : (s.rename p).dmemSize = s.dmemSize := by rw [State.rename]

@[simp] theorem rename_endian : (s.rename p).endian = s.endian := by rw [State.rename]

@[simp] theorem rename_debug : (s.rename p).debug = s.debug := by rw [State.rename]

@[simp] theorem rename_trace : (s.rename p).trace = s.trace := by rw [State.rename]

end Rename

/-- Two states with equal registers and equal other fields are equal. -/
theorem State.ext_reg {s t : State} (hreg : SameRegs s t) (hip : t.ip = s.ip) (hdmem : t.dmem = s.dmem) (hstatus : t.status = s.status)
    (htrace : t.trace = s.trace) (himem : t.imem = s.imem) (hsize : t.dmemSize = s.dmemSize) (hendian : t.endian = s.endian)
    (hdebug : t.debug = s.debug) : t = s := by
  have hregs : t.regs = s.regs := by
    apply Vector.ext
    intro k hk
    have hk' : t.reg (BitVec.ofNat 5 k) = s.reg (BitVec.ofNat 5 k) := hreg _
    simpa [State.reg, Nat.mod_eq_of_lt hk] using hk'
  cases s; cases t; simp_all only

theorem renamed_iff_eq_rename (p : Equiv.Perm RegIx) (s s' : State) : Renamed p s s' ↔ s' = s.rename p := by
  constructor
  · rintro ⟨hreg, hip, hdmem, hstatus, htrace, himem, hsize, hendian, hdebug⟩
    apply State.ext_reg
    case hreg => intro r; rw [rename_reg, ← hreg, Equiv.apply_symm_apply]
    all_goals simp [*]
  · rintro rfl
    refine ⟨fun r => ?_, ?_⟩
    · rw [rename_reg, Equiv.symm_apply_apply]
    · simp [SameLaunch]

/-- Every access to the state respects the renaming: no register is special (spec/10_state.md R14). -/
theorem rename_respectsAccess (p : Equiv.Perm RegIx) : RespectsAccess (State.rename p) p where
  reg s r := by rw [rename_reg, Equiv.symm_apply_apply]
  ip := rename_ip p
  dmem := rename_dmem p
  dmemSize := rename_dmemSize p
  endian := rename_endian p
  setReg s r v := by
    apply State.ext_reg <;> simp [SameRegs, rename_reg, setReg_reg, Equiv.symm_apply_eq]
  setIp s a := by apply State.ext_reg <;> simp [SameRegs, rename_reg]
  setByteAt s a v := by apply State.ext_reg <;> simp [SameRegs, rename_reg]
  endRun s st := by apply State.ext_reg <;> simp [SameRegs, rename_reg]

/-- Settles O31: a renaming of the registers is a map the datapath respects, and every instruction is the datapath with its row
and record. -/
theorem noRegisterIsSpecial : Obligations.NoRegisterIsSpecial := by
  refine ⟨fun p C F s s' hren => ?_, fun i s => ?_⟩
  · obtain rfl := (renamed_iff_eq_rename p s s').1 hren
    obtain ⟨t, ht⟩ := datapath_next C F s
    exact ⟨t, t.rename p, ht, (rename_respectsAccess p).datapath ht, (renamed_iff_eq_rename p t _).2 rfl⟩
  · rw [exec_eq_datapath, rowOf_eq_signalTable, (fieldsOfEncode_all i).1]

end Sys2Proof.Machine

/-! Proofs of the family other, the instructions: operands and the less-than operation (spec/40_datapath.md §1, §2), the results of
the ALU instructions (spec/41_r_format.md, spec/43_immediate.md), and jump and branches (spec/42_jump_branch.md). -/

namespace Sys2Proof.Machine

/-! ## Operands and the less-than operation -/

theorem immediate_toNat_of_immUpper {C : ControlBits} (h : C.immUpper = true) (F : Fields) :
    (immediate C F).toNat = F.imm16.toNat * 2 ^ 16 := by
  have := F.imm16.isLt
  simp only [immediate, h, if_true, BitVec.toNat_shiftLeft, BitVec.toNat_setWidth, Nat.shiftLeft_eq]
  omega

theorem immediate_toNat_of_not_immUpper {C : ControlBits} (h : C.immUpper = false) (F : Fields) :
    (immediate C F).toNat = F.imm16.toNat := by
  have := F.imm16.isLt
  simp only [immediate, h, Bool.false_eq_true, if_false, BitVec.toNat_setWidth]
  omega

/-- Settles O12: without `reg_dst` input 2 is the immediate, whose number is the field's, times 2^16 with `imm_upper`. -/
theorem operandSelection : Obligations.OperandSelection := by
  refine fun C F s => ⟨rfl, fun h => ?_, fun h hup => ?_, fun h hup => ?_⟩
  · simp [aluIn2, h]
  · simpa [aluIn2, h] using immediate_toNat_of_immUpper hup F
  · simpa [aluIn2, h] using immediate_toNat_of_not_immUpper hup F

/-- The less-than operation tells the sign of the wrapped difference (R57, 92 D3). -/
theorem aluExecute_slt (a b : Word) : (aluExecute .slt a b true).1 = if 2 ^ 31 ≤ (a - b).toNat then 1#32 else 0#32 := by
  change zext ((a + neg b).extractLsb' 31 1) = _
  rw [neg_eq_neg, ← BitVec.sub_eq_add_neg, zext_signBit]

/-- Where the difference lies in the signed range, the wrapped difference has its sign. -/
theorem sub_toNat_sign_of_no_overflow {a b : Word} (h : -(2 ^ 31) ≤ a.toInt - b.toInt ∧ a.toInt - b.toInt < 2 ^ 31) :
    2 ^ 31 ≤ (a - b).toNat ↔ a.toInt < b.toInt := by
  have ha := a.isLt
  have hb := b.isLt
  rw [BitVec.toInt_eq_toNat_cond, BitVec.toInt_eq_toNat_cond] at *
  rw [BitVec.toNat_sub]
  split_ifs at * <;> omega

/-- Where the difference leaves the signed range, the wrapped difference has the opposite sign. -/
theorem sub_toNat_sign_of_overflow {a b : Word} (h : ¬ (-(2 ^ 31) ≤ a.toInt - b.toInt ∧ a.toInt - b.toInt < 2 ^ 31)) :
    2 ^ 31 ≤ (a - b).toNat ↔ ¬ a.toInt < b.toInt := by
  have ha := a.isLt
  have hb := b.isLt
  rw [BitVec.toInt_eq_toNat_cond, BitVec.toInt_eq_toNat_cond] at *
  rw [BitVec.toNat_sub]
  split_ifs at * <;> omega

/-- Settles O11: the operation tells the sign of the wrapped difference, in the overflow band the opposite of the true one. -/
theorem lessThanAgreesUnlessOverflow : Obligations.LessThanAgreesUnlessOverflow := by
  intro a b
  dsimp only
  rw [aluExecute_slt]
  by_cases hband : -(2 ^ 31) ≤ a.toInt - b.toInt ∧ a.toInt - b.toInt < 2 ^ 31
  · rw [if_pos hband]
    exact if_congr (sub_toNat_sign_of_no_overflow hband) rfl rfl
  · rw [if_neg hband, ← ite_not (a.toInt < b.toInt)]
    exact if_congr (sub_toNat_sign_of_overflow hband) rfl rfl

/-! ## Register-format instructions -/

/-- Input 1 less input 2, as the ALU forms it with `bnegate` (R56). -/
theorem add_neg_eq_sub (a b : Word) : a + neg b = a - b := by rw [neg_eq_neg, BitVec.sub_eq_add_neg]

/-- Settles O15: the rows of the four write the ALU's sum, with input 2 negated for the subtractions. -/
theorem addSubResults : Obligations.AddSubResults := by
  intro rs rt rd ign s
  refine ⟨?_, ?_, ?_, ?_⟩
  · exact exec_writesRegister rfl rfl rfl rfl rfl rfl rfl rfl
  · exact exec_writesRegister rfl rfl rfl rfl rfl rfl rfl rfl
  · exact exec_writesRegister rfl rfl rfl rfl rfl rfl rfl (add_neg_eq_sub _ _)
  · exact exec_writesRegister rfl rfl rfl rfl rfl rfl rfl (add_neg_eq_sub _ _)

/-- Settles O16: the rows of the four write the ALU's bitwise result, inverted for `nor`. -/
theorem logicResults : Obligations.LogicResults := by
  intro rs rt rd ign s
  refine ⟨?_, ?_, ?_, ?_⟩
  all_goals exact exec_writesRegister rfl rfl rfl rfl rfl rfl rfl rfl

/-- Settles O17: one row for both, which writes the result of the less-than operation. -/
theorem setLessThanResults : Obligations.SetLessThanResults := by
  intro rs rt rd ign s
  refine ⟨?_, ?_⟩
  all_goals exact exec_writesRegister rfl rfl rfl rfl rfl rfl rfl (aluExecute_slt _ _)

/-! ## Jump and branches -/

/-- Settles O18: the row of `j` writes no register and always selects the jump target. -/
theorem jumpResult : Obligations.JumpResult := fun _ _ => exec_movesIp rfl rfl rfl rfl

theorem aluStage_beq_flag (F : Fields) (s : State) : (aluStage rowBeq F s).2 = decide (s.reg F.rs ≠ s.reg F.rt) := by
  change (!zeroFlag (s.reg F.rs ^^^ s.reg F.rt)) = _
  rw [zeroFlag_xor, decide_not]

theorem aluStage_bne_flag (F : Fields) (s : State) : (aluStage rowBne F s).2 = decide (s.reg F.rs = s.reg F.rt) :=
  zeroFlag_xor ..

/-- A row with `branch` and without `jump` selects between the target and the next word. -/
theorem nextIp_of_branch_row {C : ControlBits} (hb : C.branch = true) (hj : C.jump = false) (F : Fields) (P : Prop) [Decidable P]
    (ip : Word) : nextIp C F (decide P) ip = if P then branchTarget ip F.imm16 else ip + 4#32 := by
  split
  · next h => exact nextIp_of_branch hb (decide_eq_true h) F ip
  · next h => exact nextIp_of_sequential (by simp [h]) hj F ip

/-- `beq` inverts the flag of the compare (90 C1). -/
theorem nextIp_beq (rs rt : RegIx) (imm16 : Imm16) (s : State) :
    nextIp rowBeq (iFields 0x04#6 rs rt imm16) (aluStage rowBeq (iFields 0x04#6 rs rt imm16) s).2 s.ip
      = if s.reg rs ≠ s.reg rt then branchTarget s.ip imm16 else s.ip + 4#32 := by
  rw [aluStage_beq_flag]
  exact nextIp_of_branch_row rfl rfl ..

/-- `bne` does not invert the flag of the compare (90 C1). -/
theorem nextIp_bne (rs rt : RegIx) (imm16 : Imm16) (s : State) :
    nextIp rowBne (iFields 0x05#6 rs rt imm16) (aluStage rowBne (iFields 0x05#6 rs rt imm16) s).2 s.ip
      = if s.reg rs = s.reg rt then branchTarget s.ip imm16 else s.ip + 4#32 := by
  rw [aluStage_bne_flag]
  exact nextIp_of_branch_row rfl rfl ..

/-- Settles O19: the rows of the two write no register, and differ in the inversion of the flag alone. -/
theorem branchResults : Obligations.BranchResults := fun rs rt imm16 s =>
  ⟨exec_movesIp rfl rfl rfl (nextIp_beq rs rt imm16 s), exec_movesIp rfl rfl rfl (nextIp_bne rs rt imm16 s)⟩

/-! ## Immediate-format instructions -/

/-- Settles O20: the rows of the five take the immediate as input 2 and write the ALU's result. -/
theorem immediateResults : Obligations.ImmediateResults := by
  intro rs rt imm16 s
  refine ⟨?_, ?_, ?_, exec_ori_writesRegister rs rt imm16 s, ?_⟩
  all_goals exact exec_writesRegister rfl rfl rfl rfl rfl rfl rfl rfl

/-- The destination of `slti` as a number: the top five bits of the immediate (90 C2). -/
theorem extractLsb'_eq_ofNat_div (imm16 : Imm16) : imm16.extractLsb' 11 5 = BitVec.ofNat 5 (imm16.toNat / 2 ^ 11) := by
  rw [BitVec.extractLsb', Nat.shiftRight_eq_div_pow]

/-- Settles O21: `reg_dst` is set in their row, so input 2 is x[rt] and the destination is the record's `rd`. -/
theorem setLessThanImmediateResults : Obligations.SetLessThanImmediateResults := by
  intro rs rt imm16 s
  refine ⟨?_, ?_⟩
  all_goals
    exact exec_writesRegister rfl rfl rfl rfl rfl rfl (extractLsb'_eq_ofNat_div imm16) (aluExecute_slt _ _)

end Sys2Proof.Machine

/-! Proofs of the family other, loads and stores (spec/44_load_store.md R88 to R91, spec/20_memory.md R28 to R31). -/

namespace Sys2Proof.Machine

/-! ## The bytes of a word as numbers (R30) -/

theorem toNat_append_eq_add {m n : Nat} (x : BitVec m) (y : BitVec n) : (x ++ y).toNat = 2 ^ n * x.toNat + y.toNat := by
  rw [BitVec.toNat_append, ← Nat.shiftLeft_add_eq_or_of_lt y.isLt, Nat.shiftLeft_eq, Nat.mul_comm]

theorem bytesToWord_toNat (e : Endian) (b0 b1 b2 b3 : Byte) : (bytesToWord e b0 b1 b2 b3).toNat = wordValue e b0 b1 b2 b3 := by
  cases e <;> simp only [bytesToWord, wordValue, toNat_append_eq_add] <;> omega

/-- Byte `k` of a word in the order of its four bytes. -/
theorem wordToBytes_toNat (e : Endian) (v : Word) :
    (wordToBytes e v).1.toNat = storedByteValue e v 0 ∧ (wordToBytes e v).2.1.toNat = storedByteValue e v 1
      ∧ (wordToBytes e v).2.2.1.toNat = storedByteValue e v 2 ∧ (wordToBytes e v).2.2.2.toNat = storedByteValue e v 3 := by
  cases e <;> exact ⟨toNat_extractLsb'_eq_div_mod .., toNat_extractLsb'_eq_div_mod .., toNat_extractLsb'_eq_div_mod ..,
    toNat_extractLsb'_eq_div_mod ..⟩

/-- The bytes after a word is stored, as numbers. -/
theorem setWordAt_byteAt_toNat {s : State} (h : Memory.wf s.dmem = true) (a : Nat) (v : Word) {k : Nat} (hk : k < 4) :
    ((s.setWordAt a v).byteAt (a + k)).toNat = storedByteValue s.endian v k := by
  obtain ⟨h0, h1, h2, h3⟩ := wordToBytes_toNat s.endian v
  rw [setWordAt_byteAt h]
  obtain rfl | rfl | rfl | rfl : k = 0 ∨ k = 1 ∨ k = 2 ∨ k = 3 := by omega
  · simpa using h0
  · simpa using h1
  · simpa using h2
  · simpa using h3

theorem setWordAt_byteAt_of_outside {s : State} (h : Memory.wf s.dmem = true) {a q : Nat} (v : Word) (hq : q < a ∨ a + 4 ≤ q) :
    (s.setWordAt a v).byteAt q = s.byteAt q := by
  rw [setWordAt_byteAt h]
  rw [if_neg, if_neg, if_neg, if_neg] <;> omega

/-! ## Accesses that complete -/

/-- The next state of a byte load in range. -/
theorem exec_lb_next {rs : RegIx} (rt : RegIx) {imm16 : Imm16} {s : State} (hr : (s.reg rs + zext imm16).toNat < s.dmemSize) :
    exec (.lb rs rt imm16) s
      = .next ((s.setReg rt (zext (s.byteAt (s.reg rs + zext imm16).toNat))).setIp (s.ip + 4#32)) := by
  have hm := memStage_lb (iFields 0x20#6 rs rt imm16) (s.reg rs + zext imm16) s
  rw [byteFault_none.2 hr] at hm
  change datapath rowLb (iFields 0x20#6 rs rt imm16) s = _
  unfold datapath
  rw [show (aluStage rowLb (iFields 0x20#6 rs rt imm16) s).1 = s.reg rs + zext imm16 from rfl, hm]
  rfl

/-- A register write followed by the step to the next word is the whole effect of a load. -/
theorem setReg_setIp_writesRegister (s : State) (d : RegIx) (v : Word) :
    WritesRegister d v s ((s.setReg d v).setIp (s.ip + 4#32)) :=
  ⟨setReg_reg_self .., fun _ hr => setReg_reg_ne s v hr, fun _ => rfl, rfl, ⟨rfl, rfl, rfl, rfl⟩, rfl, rfl⟩

/-- Settles O22: the byte at the address, zero-extended, is what the load writes. -/
theorem loadByteResult : Obligations.LoadByteResult :=
  fun _ rt _ s hr => ⟨_, exec_lb_next rt hr, setReg_setIp_writesRegister s rt _⟩

/-- Settles O23: the word loaded is the four bytes joined in the order of `ENDIAN`, whose number is their value. -/
theorem loadWordResult : Obligations.LoadWordResult :=
  fun _ rt _ s ha hr => ⟨_, _, exec_lw_next rt ha hr, setReg_setIp_writesRegister s rt _, bytesToWord_toNat ..⟩

/-- Settles O24: one byte is replaced in a canonical memory, where a read after a write gives the written byte. -/
theorem storeByteResult : Obligations.StoreByteResult := by
  intro rs rt imm16 s hwf ea hr
  refine ⟨_, exec_sb_next rt hr, ?_, fun q hq => ?_, fun _ => rfl, rfl, ⟨rfl, rfl, rfl, rfl⟩, rfl, rfl⟩
  · rw [setIp_byteAt, setByteAt_byteAt hwf, if_pos rfl, BitVec.extractLsb'_toNat, Nat.shiftRight_zero]
  · rw [setIp_byteAt, setByteAt_byteAt hwf, if_neg hq]

/-- Settles O25: four bytes are replaced in a canonical memory, in the order of `ENDIAN`. -/
theorem storeWordResult : Obligations.StoreWordResult := by
  intro rs rt imm16 s hwf ea a ha hr
  refine ⟨_, exec_sw_next rt ha hr, fun k hk => ?_, fun q hq => ?_, fun _ => rfl, rfl, ⟨rfl, rfl, rfl, rfl⟩, rfl, rfl⟩
  · rw [setIp_byteAt, setWordAt_byteAt_toNat hwf a _ hk]
  · rw [setIp_byteAt, setWordAt_byteAt_of_outside hwf _ hq]

/-! ## Accesses that fault -/

/-- A data fault ends the run and changes only `status` (R63, R94). -/
theorem exec_of_memStage_error {i : Instr} {s : State} {f : DataFault}
    (h : memStage (rowOf i) (recordOf i) (aluStage (rowOf i) (recordOf i) s).1 s = .error f) :
    ∃ t, exec i s = .next t ∧ t.status = .faulted f.kind f.addr ∧ SameButStatus s t := by
  refine ⟨s.endRun (.faulted f.kind f.addr), ?_, rfl, rfl, rfl, rfl, rfl, rfl, rfl, rfl, rfl⟩
  rw [exec_eq_datapath, datapath, h]

theorem exec_faults_of_byteFault {rs rt : RegIx} {imm16 : Imm16} {s : State} {f : DataFault}
    (hf : byteFault s (s.reg rs + zext imm16) = some f) {i : Instr} (hi : i = .lb rs rt imm16 ∨ i = .sb rs rt imm16) :
    ∃ t, exec i s = .next t ∧ t.status = .faulted f.kind f.addr ∧ SameButStatus s t := by
  apply exec_of_memStage_error
  obtain rfl | rfl := hi
  · change memStage rowLb (iFields 0x20#6 rs rt imm16) (s.reg rs + zext imm16) s = _
    rw [memStage_lb, hf]
  · change memStage rowSb (iFields 0x28#6 rs rt imm16) (s.reg rs + zext imm16) s = _
    rw [memStage_sb, hf]

theorem exec_faults_of_wordFault {rs rt : RegIx} {imm16 : Imm16} {s : State} {f : DataFault}
    (hf : wordFault s (s.reg rs + zext imm16) = some f) {i : Instr} (hi : i = .lw rs rt imm16 ∨ i = .sw rs rt imm16) :
    ∃ t, exec i s = .next t ∧ t.status = .faulted f.kind f.addr ∧ SameButStatus s t := by
  apply exec_of_memStage_error
  obtain rfl | rfl := hi
  · change memStage rowLw (iFields 0x23#6 rs rt imm16) (s.reg rs + zext imm16) s = _
    rw [memStage_lw, hf]
  · change memStage rowSw (iFields 0x2B#6 rs rt imm16) (s.reg rs + zext imm16) s = _
    rw [memStage_sw, hf]

/-- Settles O26: the access checks name the fault, and a data fault changes only `status`. -/
theorem dataFaultsAreRaised : Obligations.DataFaultsAreRaised := by
  intro rs rt imm16 s
  refine ⟨fun hrange i hi => ?_, fun halign i hi => ?_, fun halign hrange i hi => ?_⟩
  · exact exec_faults_of_byteFault (byteFault_some.2 ⟨hrange, rfl⟩) (List.mem_pair.1 hi)
  · exact exec_faults_of_wordFault (wordFault_some.2 (.inl ⟨halign, rfl⟩)) (List.mem_pair.1 hi)
  · exact exec_faults_of_wordFault (wordFault_some.2 (.inr ⟨halign, hrange, rfl⟩)) (List.mem_pair.1 hi)

/-! ## A store and then a load at the same address -/

/-- Settles O27: the load joins the four bytes into which the store split the word. -/
theorem storedWordLoadsBack : Obligations.StoredWordLoadsBack := by
  intro rs rt rt' imm16 s hwf ha hr
  refine ⟨_, _, exec_sw_next rt ha hr, exec_lw_next rt' ha hr, ?_⟩
  have hjoin := bytesToWord_wordToBytes s.endian (s.reg rt)
  simpa [setWordAt_byteAt hwf] using hjoin

/-- The first byte of a stored word is its low byte in little-endian order and its high byte in big-endian order (R31). -/
theorem storedByteValue_zero (e : Endian) (v : Word) :
    storedByteValue e v 0 = if e = .little then v.toNat % 2 ^ 8 else v.toNat / 2 ^ 24 := by
  have hv := v.isLt
  cases e
  · simp [storedByteValue]
  · change v.toNat / 2 ^ 24 % 2 ^ 8 = v.toNat / 2 ^ 24
    omega

/-- Settles O28: the byte load reads the first of the four stored bytes. -/
theorem firstByteOfStoredWord : Obligations.FirstByteOfStoredWord := by
  intro rs rt rt' imm16 s hwf ha hr
  refine ⟨_, _, exec_sw_next rt ha hr, exec_lb_next rt' (Nat.lt_of_add_right_lt hr), ?_⟩
  have hfirst := setWordAt_byteAt_toNat hwf (s.reg rs + zext imm16).toNat (s.reg rt) (k := 0) (by decide)
  rw [storedByteValue_zero] at hfirst
  have hlt := ((s.setWordAt (s.reg rs + zext imm16).toNat (s.reg rt)).byteAt (s.reg rs + zext imm16).toNat).isLt
  simp only [setIp_reg, setReg_reg_self, setWordAt_reg, setIp_byteAt, BitVec.toNat_setWidth]
  rw [← hfirst, Nat.add_zero]
  omega

/-! ## The canonical form of data memory -/

theorem Memory.get_cons (k : Nat) (b : Byte) (m : Memory) (a : Nat) :
    Memory.get ((k, b) :: m) a = if k = a then b else Memory.get m a := rfl

/-- A byte that differs from the unlisted one lies at or above the least listed address. -/
theorem Memory.le_of_get_ne {n q : Nat} {m : Memory} (h : Memory.above n m = true) (hne : Memory.get m q ≠ unlistedByte) : n ≤ q :=
  Nat.le_of_not_lt fun hlt => hne (Memory.get_of_above hlt h)

theorem Memory.above_head {k : Nat} {b : Byte} {m : Memory} (h : Memory.above (k + 1) m = true) :
    Memory.above k ((k, b) :: m) = true :=
  (Memory.above_cons ..).2 ⟨le_rfl, Memory.above_mono (Nat.le_succ k) h⟩

/-- The least listed addresses of two canonical memories with the same bytes are equal, and so are the bytes there. -/
theorem Memory.eq_of_get_eq : ∀ m m' : Memory, Memory.wf m = true → Memory.wf m' = true →
    (∀ a : Nat, Memory.get m a = Memory.get m' a) → m = m'
  | [], [], _, _, _ => rfl
  | [], (k, b) :: rest, _, h', heq => by
    obtain ⟨hb, -, -⟩ := (Memory.wf_cons k b rest).1 h'
    exact absurd (heq k).symm (by simpa [Memory.get] using hb)
  | (k, b) :: rest, [], h, _, heq => by
    obtain ⟨hb, -, -⟩ := (Memory.wf_cons k b rest).1 h
    exact absurd (heq k) (by simpa [Memory.get] using hb)
  | (k, b) :: rest, (k', b') :: rest', h, h', heq => by
    obtain ⟨hb, habove, hwf⟩ := (Memory.wf_cons k b rest).1 h
    obtain ⟨hb', habove', hwf'⟩ := (Memory.wf_cons k' b' rest').1 h'
    have hle : k' ≤ k := Memory.le_of_get_ne (Memory.above_head habove') (by rw [← heq k]; simpa [Memory.get_cons] using hb)
    have hge : k ≤ k' := Memory.le_of_get_ne (Memory.above_head habove) (by rw [heq k']; simpa [Memory.get_cons] using hb')
    obtain rfl : k = k' := Nat.le_antisymm hge hle
    obtain rfl : b = b' := by simpa [Memory.get_cons] using heq k
    have hrest : ∀ a, Memory.get rest a = Memory.get rest' a := by
      intro a
      by_cases ha : k = a
      · subst ha
        rw [Memory.get_of_above (Nat.lt_succ_self k) habove, Memory.get_of_above (Nat.lt_succ_self k) habove']
      · simpa [Memory.get_cons, ha] using heq a
    rw [Memory.eq_of_get_eq rest rest' hwf hwf' hrest]

/-- Settles O29: cell by cell, from the least listed address on. -/
theorem canonicalMemoriesEqualIfSameBytes : Obligations.CanonicalMemoriesEqualIfSameBytes := Memory.eq_of_get_eq

end Sys2Proof.Machine

/-! Proofs of the family other, the cycle: what one step can do, and the invariants of the machine (spec/40_datapath.md §6,
spec/60_exceptions.md). -/

namespace Sys2Proof.Machine

/-! ## The front of a cycle -/

theorem ip_lt_imemSize_of_getElem? {s : State} {w : Word} (h : s.imem[s.ip.toNat / 4]? = some w) : s.ip.toNat < s.imemSize := by
  obtain ⟨hlt, -⟩ := List.getElem?_eq_some_iff.1 h
  unfold State.imemSize
  omega

theorem iFetch_of_getElem? {s : State} {a w : Word} (h : s.imem[a.toNat / 4]? = some w) : s.iFetch a = w := by
  rw [State.iFetch, List.getD_eq_getElem?_getD, h, Option.getD_some]

/-- A running state at a fetchable word that does not decode aborts, after the trace event (R63). -/
theorem step_of_decode_error {s : State} {e : DecodeAbort} (hrun : s.status = .running) (hfetch : Fetchable s)
    (hdec : decode (s.iFetch s.ip) = .error e) :
    step s = .next ((s.emitTrace (s.iFetch s.ip)).endRun (.aborted e.kind e.code)) := by
  obtain ⟨hrange, haligned⟩ := hfetch
  simp [step, fetchDecode, hrun, Nat.not_le.mpr hrange, haligned, hdec]

theorem step_of_imemSize_le {s : State} (hrun : s.status = .running) (h : s.imemSize ≤ s.ip.toNat) :
    step s = .next (s.endRun .halted) := by
  simp [step, fetchDecode, hrun, h]

theorem step_of_misaligned {s : State} (hrun : s.status = .running) (h : s.ip.toNat < s.imemSize) (ha : s.ip.toNat % 4 ≠ 0) :
    step s = .next (s.endRun (.faulted .fetchMisaligned s.ip)) := by
  simp [step, fetchDecode, hrun, Nat.not_le.mpr h, ha]

theorem step_of_ended {s : State} (h : s.status ≠ .running) : step s = .fault (.runEnded s.status) := by
  simp [step, fetchDecode, h]

/-- Ending a run changes only `status`. -/
theorem endRun_sameButStatus (s : State) (st : RunStatus) : SameButStatus s (s.endRun st) :=
  ⟨rfl, rfl, rfl, rfl, rfl, rfl, rfl, rfl⟩

/-- Settles O33: the word fetched is the program's word at `ip`. -/
theorem stepRunsDecodedInstruction : Obligations.StepRunsDecodedInstruction := by
  intro s w i hrun halign hw hdec
  have hf := iFetch_of_getElem? hw
  rw [step_eq_exec hrun ⟨ip_lt_imemSize_of_getElem? hw, halign⟩ (hf ▸ hdec), hf]; rfl

/-- Settles O34: the halt check stands before the alignment check. -/
theorem stepHaltsPastProgram : Obligations.StepHaltsPastProgram :=
  fun s hrun h => ⟨_, step_of_imemSize_le hrun h, rfl, endRun_sameButStatus s _⟩

/-- Settles O35: the fetch faults before the trace event. -/
theorem misalignedFetchFaults : Obligations.MisalignedFetchFaults :=
  fun s hrun h ha => ⟨_, step_of_misaligned hrun h ha, rfl, endRun_sameButStatus s _⟩

/-- Settles O36: the abort ends the run of the state with the trace event emitted. -/
theorem unsupportedWordEndsRun : Obligations.UnsupportedWordEndsRun := by
  intro s w e hrun halign hw hdec
  have hf := iFetch_of_getElem? hw
  refine ⟨_, step_of_decode_error hrun ⟨ip_lt_imemSize_of_getElem? hw, halign⟩ (hf ▸ hdec), rfl, ?_⟩
  simp [SameLaunch, emitTrace_trace, hf]

/-- Settles O37: only the status check answers a fault. -/
theorem endedRunIsStuck : Obligations.EndedRunIsStuck := by
  refine fun s => ⟨⟨step_of_ended, fun hfault hrun => ?_⟩, step_running_next⟩
  obtain ⟨t, ht⟩ := step_running_next hrun
  rw [ht] at hfault
  cases hfault

/-- Settles O38: the control unit answers the row of the decoded instruction, or its abort, so the two cycles agree on every word. -/
theorem stepIsControlUnitCycle : Obligations.StepIsControlUnitCycle := by
  intro s
  obtain ⟨hrun, hs⟩ | ⟨hrun, h, hs⟩ | ⟨hrun, h, ha, hs⟩ | ⟨e, hrun, h, ha, hdec, hs⟩ | ⟨i, hrun, h, ha, hdec, hs⟩ := step_cases s
  · rw [hs, cycleByControlUnit]
    split
    · next h => exact absurd h hrun
    · rfl
  · simp [cycleByControlUnit, hrun, hs, h]
  · simp [cycleByControlUnit, hrun, hs, Nat.not_le.mpr h, ha]
  · simp [cycleByControlUnit, hrun, hs, Nat.not_le.mpr h, ha, (decode_error_iff_derive_error _ e).1 hdec]
  · simp [cycleByControlUnit, hrun, hs, Nat.not_le.mpr h, ha, derive_of_decode hdec, exec_of_decode hdec]

/-! ## What a step to a next state can do -/

/-- The inversion lemma of a step to a next state: halted, a misaligned fetch, an abort, or the decoded instruction run after the
trace event (R63, R96). -/
theorem step_next_cases {s t : State} (h : step s = .next t) :
    s.status = .running
      ∧ ((s.imemSize ≤ s.ip.toNat ∧ t = s.endRun .halted)
        ∨ (s.ip.toNat < s.imemSize ∧ s.ip.toNat % 4 ≠ 0 ∧ t = s.endRun (.faulted .fetchMisaligned s.ip))
        ∨ (∃ e, Fetchable s ∧ decode (s.iFetch s.ip) = .error e
          ∧ t = (s.emitTrace (s.iFetch s.ip)).endRun (.aborted e.kind e.code))
        ∨ ∃ i, Fetchable s ∧ decode (s.iFetch s.ip) = .ok i ∧ exec i (s.emitTrace (s.iFetch s.ip)) = .next t) := by
  obtain ⟨_, hs⟩ | ⟨hrun, hr, hs⟩ | ⟨hrun, hr, ha, hs⟩ | ⟨e, hrun, hr, ha, hdec, hs⟩ | ⟨i, hrun, hr, ha, hdec, hs⟩ := step_cases s
  all_goals rw [hs] at h
  · cases h
  · cases h; exact ⟨hrun, .inl ⟨hr, rfl⟩⟩
  · cases h; exact ⟨hrun, .inr (.inl ⟨hr, ha, rfl⟩)⟩
  · cases h; exact ⟨hrun, .inr (.inr (.inl ⟨e, ⟨hr, ha⟩, hdec, rfl⟩))⟩
  · exact ⟨hrun, .inr (.inr (.inr ⟨i, ⟨hr, ha⟩, hdec, h⟩))⟩

/-- Settles O40: the trace event, the end of a run and the stages of an instruction leave the launch parameters alone. -/
theorem launchParametersNeverChange : Obligations.LaunchParametersNeverChange := by
  intro s t h
  have hlaunch : SameLaunch s t := by
    obtain ⟨_, ⟨_, rfl⟩ | ⟨_, _, rfl⟩ | ⟨e, _, _, rfl⟩ | ⟨i, _, _, hx⟩⟩ := step_next_cases h
    · exact ⟨rfl, rfl, rfl, rfl⟩
    · exact ⟨rfl, rfl, rfl, rfl⟩
    · exact emitTrace_sameLaunch s _
    · exact (emitTrace_sameLaunch s _).trans (exec_same hx).1
  refine ⟨hlaunch, fun hsizes => ?_⟩
  obtain ⟨himem, hsize, _, _⟩ := hlaunch
  rwa [SizesAllowed, State.imemSize, himem, hsize]

/-- A step that fetches nothing leaves the trace alone; one that fetches emits its event, and nothing after the fetch adds one. -/
theorem step_trace {s t : State} (h : step s = .next t) :
    (¬ Fetchable s ∧ t.trace = s.trace) ∨ (Fetchable s ∧ t.trace = (s.emitTrace (s.iFetch s.ip)).trace) := by
  obtain ⟨_, ⟨hr, rfl⟩ | ⟨_, ha, rfl⟩ | ⟨e, hf, _, rfl⟩ | ⟨i, hf, _, hx⟩⟩ := step_next_cases h
  · exact .inl ⟨fun hf => absurd hf.1 (Nat.not_lt.mpr hr), rfl⟩
  · exact .inl ⟨fun hf => ha hf.2, rfl⟩
  · exact .inr ⟨hf, rfl⟩
  · exact .inr ⟨hf, (exec_same hx).2.1⟩

/-- Settles O45: the one event of a step is the one `emitTrace` adds. -/
theorem traceRecordsEveryFetch : Obligations.TraceRecordsEveryFetch := by
  intro s t h
  obtain ⟨hf, ht⟩ | ⟨hf, ht⟩ := step_trace h
  · exact ⟨fun hf' => absurd hf' hf, fun _ => ht⟩
  · rw [ht, emitTrace_trace]
    exact ⟨fun _ hd => if_pos hd, fun hn => if_neg fun hd => hn ⟨hf, hd⟩⟩

/-- Settles O49: the event a step adds is the program's word at its fetchable `ip` (O45), and no step changes the program or the
debug flag (O40). -/
theorem stepKeepsTraceTrue : Obligations.StepKeepsTraceTrue := by
  intro s t htrue h
  obtain ⟨htrue, hquiet⟩ := htrue
  obtain ⟨⟨himem, _, _, hdebug⟩, _⟩ := launchParametersNeverChange s t h
  obtain ⟨hadds, hkeeps⟩ := traceRecordsEveryFetch s t h
  have hsize : t.imemSize = s.imemSize := by rw [State.imemSize, State.imemSize, himem]
  have hfetch (a : Word) : t.iFetch a = s.iFetch a := by rw [State.iFetch, State.iFetch, himem]
  refine ⟨fun e he => ?_, fun hd => ?_⟩
  · rw [hsize, hfetch]
    by_cases hf : Fetchable s ∧ s.debug = true
    · rw [hadds hf.1 hf.2, List.mem_append, List.mem_singleton] at he
      obtain he | rfl := he
      · exact htrue e he
      · exact ⟨hf.1.1, hf.1.2, rfl⟩
    · rw [hkeeps hf] at he
      exact htrue e he
  · rw [hdebug] at hd
    rw [hkeeps (by simp [hd]), hquiet hd]

/-- Settles O41: of the access stages that complete, only those of `sb` and `sw` store, and no other part of a step touches a byte. -/
theorem onlyStoresChangeMemory : Obligations.OnlyStoresChangeMemory := by
  intro s t h hchanged
  obtain ⟨_, ⟨_, rfl⟩ | ⟨_, _, rfl⟩ | ⟨e, _, _, rfl⟩ | ⟨i, _, hdec, hx⟩⟩ := step_next_cases h
  · exact absurd rfl hchanged
  · exact absurd rfl hchanged
  · exact absurd (emitTrace_dmem s _) hchanged
  · obtain ⟨f, _, rfl⟩ | ⟨s1, m, hm, rfl⟩ := exec_cases hx
    · exact absurd (emitTrace_dmem s _) hchanged
    · rw [(pcUpdate_writeBack_same ..).2.1] at hchanged
      obtain rfl | ⟨rs, rt, imm16, rfl, _⟩ | ⟨rs, rt, imm16, rfl, _⟩ := memStage_ok_cases hm
      · exact absurd (emitTrace_dmem s _) hchanged
      · exact ⟨rs, rt, imm16, .inl hdec⟩
      · exact ⟨rs, rt, imm16, .inr hdec⟩

/-- An instruction keeps data memory canonical: a store reaches only addresses its check has found below `DMEM_SIZE`. -/
theorem exec_keeps_memoryCanonical {i : Instr} {s t : State} (h : exec i s = .next t) (hcan : MemoryCanonical s) :
    MemoryCanonical t := by
  obtain ⟨f, _, rfl⟩ | ⟨s1, m, hm, rfl⟩ := exec_cases h
  · exact hcan
  · obtain ⟨hwf, hbelow⟩ := hcan
    have hs1 : MemoryCanonical s1 := by
      obtain rfl | ⟨_, _, _, _, ha, v, rfl⟩ | ⟨_, _, _, _, _, ha, v, rfl⟩ := memStage_ok_cases hm
      · exact ⟨hwf, hbelow⟩
      · exact ⟨setByteAt_wf hwf _ v, setByteAt_below hbelow ha v⟩
      · exact ⟨setWordAt_wf hwf _ v, setWordAt_below hbelow ha v⟩
    obtain ⟨⟨⟨_, hsize, _, _⟩, _, _⟩, hdmem, _⟩ := pcUpdate_writeBack_same (rowOf i) (recordOf i)
      (aluStage (rowOf i) (recordOf i) s).2 (aluStage (rowOf i) (recordOf i) s).1 m s1
    rwa [MemoryCanonical, hdmem, hsize]

/-- Settles O47: the front of the cycle touches no byte, and the instruction keeps the form. -/
theorem stepKeepsMemoryCanonical : Obligations.StepKeepsMemoryCanonical := by
  intro s t hcan h
  have htraced : MemoryCanonical (s.emitTrace (s.iFetch s.ip)) := by simpa [MemoryCanonical] using hcan
  obtain ⟨_, ⟨_, rfl⟩ | ⟨_, _, rfl⟩ | ⟨e, _, _, rfl⟩ | ⟨i, _, _, hx⟩⟩ := step_next_cases h
  · exact hcan
  · exact hcan
  · exact htraced
  · exact exec_keeps_memoryCanonical hx htraced

/-! ## The status a step leaves -/

theorem emitTrace_fetchable (s : State) (w : Word) : Fetchable (s.emitTrace w) ↔ Fetchable s := by simp [Fetchable]

/-- The instruction at a fetchable `ip` leaves the status Running, or a data fault that its address explains (R94). -/
theorem exec_leaves_explainedStatus {i : Instr} {s t : State} (hrun : s.status = .running) (hf : Fetchable s)
    (hdec : decode (s.iFetch s.ip) = .ok i) (h : exec i s = .next t) : StatusExplained t := by
  obtain ⟨_, _, ⟨f, rfl, hm⟩ | hstatus⟩ := exec_same h
  · obtain ⟨rs, rt, imm16, hi, hrange, rfl⟩ | ⟨rs, rt, imm16, hi, ⟨ha, rfl⟩ | ⟨ha, hrange, rfl⟩⟩ := memStage_error_cases hm
    · exact ⟨hf, .inl ⟨⟨rs, rt, imm16, by simpa [hdec] using hi, rfl⟩, hrange⟩⟩
    · exact ⟨hf, ⟨rs, rt, imm16, by simpa [hdec] using hi, rfl⟩, ha⟩
    · exact ⟨hf, .inr ⟨⟨rs, rt, imm16, by simpa [hdec] using hi, rfl⟩, ha, hrange⟩⟩
  · rw [StatusExplained, hstatus, hrun]; trivial

/-- Settles O48: each end of the cycle's front is the check that found it, and the rest are the data faults of the instruction. -/
theorem stepLeavesExplainedStatus : Obligations.StepLeavesExplainedStatus := by
  intro s t h
  obtain ⟨hrun, ⟨hr, rfl⟩ | ⟨hr, ha, rfl⟩ | ⟨e, hf, hdec, rfl⟩ | ⟨i, hf, hdec, hx⟩⟩ := step_next_cases h
  · exact hr
  · exact ⟨rfl, hr, ha⟩
  · exact ⟨(emitTrace_fetchable s _).2 hf, by simpa using hdec⟩
  · exact exec_leaves_explainedStatus (by simpa using hrun) ((emitTrace_fetchable s _).2 hf) (by simpa using hdec) hx

/-- A step that ends in an error only records it, in the state before the fetch or after its trace event. -/
theorem step_error_cases {s t : State} (h : step s = .next t) (herr : t.status.isError = true) :
    ∃ st, t = s.endRun st ∨ t = (s.emitTrace (s.iFetch s.ip)).endRun st := by
  obtain ⟨hrun, ⟨_, rfl⟩ | ⟨_, _, rfl⟩ | ⟨e, _, _, rfl⟩ | ⟨i, _, _, hx⟩⟩ := step_next_cases h
  · exact ⟨_, .inl rfl⟩
  · exact ⟨_, .inl rfl⟩
  · exact ⟨_, .inr rfl⟩
  · obtain ⟨_, _, ⟨f, rfl, _⟩ | hstatus⟩ := exec_same hx
    · exact ⟨_, .inr rfl⟩
    · rw [hstatus, emitTrace_status, hrun] at herr; cases herr

theorem runResult_of_isError {st : RunStatus} (h : st.isError = true) : ∃ e, runResult st = some (.err e) := by
  cases st with
  | running => cases h
  | halted => cases h
  | aborted kind code => exact ⟨_, rfl⟩
  | faulted kind addr => exact ⟨_, rfl⟩

/-- Settles O39: the end of a run and the trace event of the fetch change nothing else, and the status is explained (O48). -/
theorem errorsArePrecise : Obligations.ErrorsArePrecise := by
  intro s t h herr
  have hexplained := stepLeavesExplainedStatus s t h
  have hresult := runResult_of_isError herr
  have hframe : t.ip = s.ip ∧ t.regs = s.regs ∧ t.dmem = s.dmem ∧ SameLaunch s t
      ∧ (t.trace = s.trace ∨ t.trace = s.trace ++ [⟨s.ip, s.iFetch s.ip⟩]) := by
    obtain ⟨st, rfl | rfl⟩ := step_error_cases h herr
    · exact ⟨rfl, rfl, rfl, ⟨rfl, rfl, rfl, rfl⟩, .inl rfl⟩
    · refine ⟨emitTrace_ip s _, emitTrace_regs s _, emitTrace_dmem s _, emitTrace_sameLaunch s _, ?_⟩
      rw [endRun_trace, emitTrace_trace]
      split
      · exact .inr rfl
      · exact .inl rfl
  obtain ⟨hip, hregs, hdmem, hlaunch, htrace⟩ := hframe
  refine ⟨hip, hregs, hdmem, hlaunch, htrace, hexplained, hresult, ?_, ?_, ?_, ?_, ?_⟩
  all_goals intro _ hst; rw [hst]; rfl

/-! ## Registers -/

/-- The memory access stage writes no register and leaves `ip` alone. -/
theorem memStage_ok_frame {i : Instr} {a : Word} {s s1 : State} {m : Option Word}
    (h : memStage (rowOf i) (recordOf i) a s = .ok (s1, m)) : SameRegs s s1 ∧ s1.ip = s.ip := by
  obtain rfl | ⟨_, _, _, _, _, v, rfl⟩ | ⟨_, _, _, _, _, _, v, rfl⟩ := memStage_ok_cases h
  · exact ⟨fun _ => rfl, rfl⟩
  · exact ⟨fun _ => rfl, rfl⟩
  · exact ⟨fun _ => rfl, rfl⟩

@[simp] theorem writeBack_ip (C : ControlBits) (F : Fields) (r : Word) (m : Option Word) (s : State) :
    (writeBack C F r m s).ip = s.ip := by
  obtain h | ⟨v, _, h⟩ := writeBack_cases C F r m s
  · rw [h]
  · rw [h, setReg_ip]

theorem exec_sameRegsBut_destination {i : Instr} {s t : State} (h : exec i s = .next t) :
    SameRegsBut (destination (rowOf i) (recordOf i)) s t := by
  obtain ⟨f, _, rfl⟩ | ⟨s1, m, hm, rfl⟩ := exec_cases h
  · exact fun _ _ => rfl
  · intro r hr
    rw [(pcUpdate_writeBack_same ..).2.2 r hr, (memStage_ok_frame hm).1]

theorem exec_sameRegs_of_regWrite_false {i : Instr} {s t : State} (h : exec i s = .next t) (hw : (rowOf i).regWrite = false) :
    SameRegs s t := by
  obtain ⟨f, _, rfl⟩ | ⟨s1, m, hm, rfl⟩ := exec_cases h
  · exact fun _ => rfl
  · rw [writeBack_of_regWrite_false hw]
    exact fun r => (memStage_ok_frame hm).1 r

/-- Settles O32: the front of the cycle writes no register, write-back only the destination, and only with `reg_write`. -/
theorem atMostOneRegisterPerCycle : Obligations.AtMostOneRegisterPerCycle := by
  intro s t h
  obtain ⟨_, ⟨_, rfl⟩ | ⟨_, _, rfl⟩ | ⟨e, _, _, rfl⟩ | ⟨i, _, hdec, hx⟩⟩ := step_next_cases h
  · exact ⟨⟨0, fun _ _ => rfl⟩, fun _ _ _ _ => rfl⟩
  · exact ⟨⟨0, fun _ _ => rfl⟩, fun _ _ _ _ => rfl⟩
  · exact ⟨⟨0, fun r _ => emitTrace_reg s r _⟩, fun _ _ _ r => emitTrace_reg s r _⟩
  · refine ⟨⟨destination (rowOf i) (recordOf i), fun r hr => ?_⟩, fun i' hdec' hw r => ?_⟩
    · rw [exec_sameRegsBut_destination hx r hr, emitTrace_reg]
    · obtain rfl : i = i' := Except.ok.inj (hdec.symm.trans hdec')
      rw [exec_sameRegs_of_regWrite_false hx hw, emitTrace_reg]

/-! ## The instruction pointer -/

/-- A step after which the run goes on has run the instruction at a fetchable `ip`. -/
theorem step_running_cases {s t : State} (h : step s = .next t) (hrun : t.status = .running) :
    ∃ i, Fetchable s ∧ decode (s.iFetch s.ip) = .ok i ∧ exec i (s.emitTrace (s.iFetch s.ip)) = .next t := by
  obtain ⟨_, ⟨_, rfl⟩ | ⟨_, _, rfl⟩ | ⟨e, _, _, rfl⟩ | hx⟩ := step_next_cases h
  · cases hrun
  · cases hrun
  · cases hrun
  · exact hx

/-- An instruction after which the run goes on has moved `ip` as its row says. -/
theorem exec_running_ip {i : Instr} {s t : State} (h : exec i s = .next t) (hrun : t.status = .running) :
    t.ip = nextIp (rowOf i) (recordOf i) (aluStage (rowOf i) (recordOf i) s).2 s.ip := by
  obtain ⟨f, _, rfl⟩ | ⟨s1, m, hm, rfl⟩ := exec_cases h
  · cases hrun
  · rw [pcUpdate_ip, writeBack_ip, (memStage_ok_frame hm).2]

/-- The rows that do not step to the next word: `j`, and `beq` and `bne` when taken (R62, 90 C1). -/
theorem nextIp_rowOf_cases (i : Instr) (s : State) :
    let ip' := nextIp (rowOf i) (recordOf i) (aluStage (rowOf i) (recordOf i) s).2 s.ip
    ip' = s.ip + 4#32
      ∨ (∃ addr, i = .j addr ∧ ip' = jumpTarget s.ip addr)
      ∨ (∃ rs rt imm16, i = .beq rs rt imm16 ∧ s.reg rs ≠ s.reg rt ∧ ip' = branchTarget s.ip imm16)
      ∨ (∃ rs rt imm16, i = .bne rs rt imm16 ∧ s.reg rs = s.reg rt ∧ ip' = branchTarget s.ip imm16) := by
  cases i
  case j addr => exact .inr (.inl ⟨addr, rfl, rfl⟩)
  case beq rs rt imm16 =>
    have hip := nextIp_beq rs rt imm16 s
    split at hip
    · next hne => exact .inr (.inr (.inl ⟨rs, rt, imm16, rfl, hne, hip⟩))
    · exact .inl hip
  case bne rs rt imm16 =>
    have hip := nextIp_bne rs rt imm16 s
    split at hip
    · next heq => exact .inr (.inr (.inr ⟨rs, rt, imm16, rfl, heq, hip⟩))
    · exact .inl hip
  all_goals exact .inl rfl

/-- Settles O42: the trace event touches neither `ip` nor a register, and the row of the instruction selects the next `ip`. -/
theorem instructionPointerMoves : Obligations.InstructionPointerMoves := by
  intro s t h hrun
  obtain ⟨i, _, hdec, hx⟩ := step_running_cases h hrun
  have hmoves := nextIp_rowOf_cases i (s.emitTrace (s.iFetch s.ip))
  rw [← exec_running_ip hx hrun] at hmoves
  simp only [emitTrace_ip, emitTrace_reg] at hmoves
  exact ⟨i, hdec, hmoves⟩

/-- Settles O43: a fetchable `ip` has a whole word of the program above it. -/
theorem instructionPointerNeverWraps : Obligations.InstructionPointerNeverWraps := by
  intro s t hsize h hrun
  obtain ⟨i, ⟨hrange, halign⟩, _⟩ := step_running_cases h hrun
  have hwords : s.imemSize = 4 * s.imem.length := rfl
  have hle : s.ip.toNat ≤ 0xFFFFFFF8 := by omega
  refine ⟨hle, ?_⟩
  rw [BitVec.toNat_add, BitVec.toNat_ofNat]
  omega

/-! ## The debug flag and the trace -/

/-- No access to the state looks at the debug flag or the trace (R65). -/
theorem quiet_respectsAccess : RespectsAccess quiet id :=
  ⟨fun _ _ => rfl, fun _ => rfl, fun _ => rfl, fun _ => rfl, fun _ => rfl, fun _ _ _ => rfl, fun _ _ => rfl, fun _ _ _ => rfl,
    fun _ _ => rfl⟩

theorem quiet_status (s : State) : (quiet s).status = s.status := rfl

theorem quiet_emitTrace (s : State) (w : Word) : quiet (s.emitTrace w) = quiet s := by
  unfold State.emitTrace; split <;> rfl

theorem emitTrace_quiet (s : State) (w : Word) : (quiet s).emitTrace w = quiet s := rfl

theorem exec_quiet {i : Instr} {s t : State} (h : exec i s = .next t) : exec i (quiet s) = .next (quiet t) := by
  rw [exec_eq_datapath] at h ⊢
  exact quiet_respectsAccess.datapath h

/-- Without its debug output a state steps to the next state without its debug output. -/
theorem step_quiet {s t : State} (h : step s = .next t) : step (quiet s) = .next (quiet t) := by
  obtain ⟨hrun, ⟨hr, rfl⟩ | ⟨hr, ha, rfl⟩ | ⟨e, hf, hdec, rfl⟩ | ⟨i, hf, hdec, hx⟩⟩ := step_next_cases h
  · exact step_of_imemSize_le (s := quiet s) hrun hr
  · exact step_of_misaligned (s := quiet s) hrun hr ha
  · rw [quiet_respectsAccess.endRun, quiet_emitTrace]
    exact step_of_decode_error (s := quiet s) hrun hf hdec
  · rw [step_eq_exec (s := quiet s) hrun hf hdec, emitTrace_quiet, ← quiet_emitTrace s]
    exact exec_quiet hx

/-- A step faults exactly from an ended run, with its status. -/
theorem step_fault_iff {s : State} {f : Fault} : step s = .fault f ↔ s.status ≠ .running ∧ f = .runEnded s.status := by
  refine ⟨fun h => ?_, fun ⟨hended, hf⟩ => hf ▸ step_of_ended hended⟩
  by_cases hrun : s.status = .running
  · obtain ⟨t, ht⟩ := step_running_next hrun
    rw [ht] at h; cases h
  · rw [step_of_ended hrun] at h
    cases h; exact ⟨hrun, rfl⟩

/-- Settles O44: two states that agree but for the debug output are the same quiet state, whose step is the quiet step of both. -/
theorem traceInfluencesNothing : Obligations.TraceInfluencesNothing := by
  intro s s' hquiet
  have hstatus : s.status = s'.status := by rw [← quiet_status s, hquiet, quiet_status]
  refine ⟨fun t h => ?_, fun f h => ?_⟩
  · obtain ⟨t', ht'⟩ := step_running_next (hstatus ▸ (step_next_cases h).1)
    have hsteps : step (quiet s) = step (quiet s') := by rw [hquiet]
    rw [step_quiet h, step_quiet ht'] at hsteps
    exact ⟨t', ht', Host.Outcome.next.inj hsteps⟩
  · rw [step_fault_iff] at h ⊢
    rwa [← hstatus]

end Sys2Proof.Machine

/-! Proofs of the family other, launch and run (spec/40_datapath.md R64, R66, spec/70_reset_and_hazards.md R107). -/

namespace Sys2Proof.Machine

/-! ## Launch -/

theorem wellFormed_iff (l : Launch) : l.wellFormed = true ↔
    (l.imemSize ≤ imemSizeMax ∧ l.dmemSize ≤ dmemSizeMax) ∧ Memory.wf l.dmem0 = true ∧ Memory.below l.dmemSize l.dmem0 = true := by
  simp [Launch.wellFormed, and_assoc]

/-- The start state of an allowed launch meets every invariant. -/
theorem ofLaunch_meets_invariants {l : Launch} (h : l.wellFormed = true) :
    SizesAllowed (State.ofLaunch l) ∧ MemoryCanonical (State.ofLaunch l) ∧ StatusExplained (State.ofLaunch l)
      ∧ TraceTrue (State.ofLaunch l) := by
  obtain ⟨hsizes, hcan⟩ := (wellFormed_iff l).1 h
  exact ⟨hsizes, hcan, trivial, fun _ he => absurd he List.not_mem_nil, fun _ => rfl⟩

/-- Settles O46: `State.reset` is the start state of an allowed launch. -/
theorem resetMeetsInvariants : Obligations.ResetMeetsInvariants := by
  obtain ⟨hsizes, hcan, hstatus, htrace⟩ := ofLaunch_meets_invariants test_launch_accepted.1
  exact ⟨hsizes, hcan, hstatus, htrace, rfl, rfl⟩

/-- Settles O50: the start state holds the launch parameters as they are, and a launch that is too large is not allowed. -/
theorem launchStartsOrRefuses : Obligations.LaunchStartsOrRefuses := by
  refine fun l => ⟨fun h => ?_, fun hlarge => ?_⟩
  · exact ⟨State.ofLaunch l, if_pos h, rfl, rfl, fun _ => rfl, fun _ => rfl, rfl, rfl, rfl, rfl, rfl, ofLaunch_meets_invariants h⟩
  · have hrefused : ¬ l.wellFormed = true := by
      rw [wellFormed_iff]
      rintro ⟨⟨himem, hdmem⟩, _⟩
      simp only [imemSizeMax, dmemSizeMax, Launch.imemSize] at himem hdmem
      omega
    exact if_neg hrefused

/-! ## Bounded runs -/

/-- What every step keeps, a bounded run keeps. -/
theorem runFor_keeps {P : State → Prop} (hstep : ∀ s t, P s → step s = .next t → P t) : ∀ (n : Nat) (s : State), P s → P (runFor n s)
  | 0, _, hs => hs
  | n + 1, s, hs => by
    by_cases hrun : s.status = .running
    · obtain ⟨t, ht⟩ := step_running_next hrun
      rw [runFor_succ_next hrun ht]
      exact runFor_keeps hstep n t (hstep s t hs ht)
    · rwa [runFor_ended hrun]

theorem runResult_ok_iff (st : RunStatus) : runResult st = some .ok ↔ st = .halted := by cases st <;> simp

theorem runResult_none_iff (st : RunStatus) : runResult st = none ↔ st = .running := by cases st <;> simp

/-- While a bounded run is Running, one step more is the machine's, whatever it ends in. -/
theorem core_run_succ_eq_runFor {n : Nat} {s : State} (h : (runFor n s).status = .running) :
    Sys2Proof.core.run (n + 1) s = .next (runFor (n + 1) s) := by
  obtain ⟨t, ht⟩ := step_running_next h
  rw [core_run_add_next 1 n s _ (core_run_eq_runFor n s h), core_run_succ_next 0 ht, runFor_add, runFor_succ_next h ht]
  rfl

/-- What a run from a launch keeps: its program, an explained status, canonical memory. -/
def RunInvariant (imem : List Word) (s : State) : Prop := s.imem = imem ∧ StatusExplained s ∧ MemoryCanonical s

theorem step_keeps_runInvariant (imem : List Word) (s t : State) (hs : RunInvariant imem s) (h : step s = .next t) :
    RunInvariant imem t := by
  obtain ⟨himem, _, hcan⟩ := hs
  obtain ⟨⟨hsame, _⟩, _⟩ := launchParametersNeverChange s t h
  exact ⟨hsame.trans himem, stepLeavesExplainedStatus s t h, stepKeepsMemoryCanonical s t hcan h⟩

/-- Settles O51: the invariants hold at the launch and every step keeps them, and the bounded run takes the machine's steps. -/
theorem runResultIsExplained : Obligations.RunResultIsExplained := by
  refine ⟨fun l s n hl => ?_, fun s n => ⟨runFor_zero s, fun h => ?_, fun h k => ?_⟩⟩
  · obtain ⟨hwf, rfl⟩ := launch_next hl
    obtain ⟨_, hcan, hstatus, _⟩ := ofLaunch_meets_invariants hwf
    obtain ⟨himem, hexplained, hcan⟩ := runFor_keeps (step_keeps_runInvariant l.imem) n _ ⟨rfl, hstatus, hcan⟩
    refine ⟨hexplained, hcan, runResult_ok_iff _, fun hok => ?_, runResult_none_iff _⟩
    rw [StatusExplained, (runResult_ok_iff _).1 hok] at hexplained
    rw [← himem]
    exact hexplained
  · exact ⟨core_run_eq_runFor n s h, core_run_succ_eq_runFor h⟩
  · rw [runFor_add, runFor_ended h]

/-! ## A straight-line program -/

/-- An instruction without data access, branch or jump completes and steps to the next word. -/
theorem exec_straightLine {i : Instr} (h : leavesStraightLine i = false) (s : State) :
    ∃ t, exec i s = .next t ∧ t.status = s.status ∧ t.ip = s.ip + 4#32 ∧ t.imem = s.imem := by
  simp only [leavesStraightLine, Bool.or_eq_false_iff] at h
  obtain ⟨⟨⟨hread, hwrite⟩, hbranch⟩, hjump⟩ := h
  refine ⟨_, (exec_eq_datapath i s).trans (datapath_no_access hwrite hread ..), ?_⟩
  obtain ⟨⟨⟨himem, _⟩, hstatus, _⟩, _⟩ := pcUpdate_writeBack_same (rowOf i) (recordOf i) (aluStage (rowOf i) (recordOf i) s).2
    (aluStage (rowOf i) (recordOf i) s).1 none s
  refine ⟨hstatus, ?_, himem⟩
  rw [pcUpdate_ip, nextIp_of_sequential (by simp [hbranch]) hjump, writeBack_ip]

/-- Every word of the program is an instruction without data access, branch or jump. -/
def StraightLine (imem : List Word) : Prop := ∀ w ∈ imem, ∃ i, decode w = .ok i ∧ leavesStraightLine i = false

/-- The state of a straight-line run before its word `n`. -/
def AtWord (imem : List Word) (n : Nat) (s : State) : Prop := s.imem = imem ∧ s.status = .running ∧ s.ip.toNat = 4 * n

/-- A step at a word of a straight-line program of an allowed size goes on to the next word. -/
theorem step_of_atWord {imem : List Word} (hsize : 4 * imem.length ≤ 0xFFFFFFFC) (hline : StraightLine imem) {n : Nat} {s : State}
    (hat : AtWord imem n s) (hn : n < imem.length) : ∃ t, step s = .next t ∧ AtWord imem (n + 1) t := by
  obtain ⟨rfl, hrun, hip⟩ := hat
  have hword : s.imem[s.ip.toNat / 4]? = some s.imem[n] := by
    rw [hip, Nat.mul_div_cancel_left n (by decide), List.getElem?_eq_getElem hn]
  obtain ⟨i, hdec, hi⟩ := hline _ (List.getElem_mem hn)
  obtain ⟨t, ht, hstatus, htip, himem⟩ := exec_straightLine hi (s.emitTrace (s.iFetch s.ip))
  refine ⟨t, ?_, by rw [himem, emitTrace_imem], by rw [hstatus, emitTrace_status, hrun], ?_⟩
  · rw [step_eq_exec hrun ⟨ip_lt_imemSize_of_getElem? hword, by omega⟩ (by rw [iFetch_of_getElem? hword, hdec]), ht]
  · rw [htip, emitTrace_ip, BitVec.toNat_add, BitVec.toNat_ofNat]
    omega

/-- The run of a straight-line program reaches every word in turn, and the end of the program. -/
theorem core_run_atWord {s : State} (hsize : 4 * s.imem.length ≤ 0xFFFFFFFC) (hline : StraightLine s.imem)
    (hstart : AtWord s.imem 0 s) : ∀ n : Nat, n ≤ s.imem.length → ∃ u : State, Sys2Proof.core.run n s = .next u ∧ AtWord s.imem n u
  | 0, _ => ⟨s, rfl, hstart⟩
  | n + 1, hn => by
    obtain ⟨u, hu, hat⟩ := core_run_atWord hsize hline hstart n (by omega)
    obtain ⟨t, ht, hat'⟩ := step_of_atWord hsize hline hat (by omega)
    exact ⟨t, by rw [core_run_add_next 1 n s u hu, core_run_succ_next 0 ht, core_run_zero], hat'⟩

/-- Settles O52: an induction over the words of the program; after the last one `ip` is IMEM_SIZE, where the step halts. -/
theorem straightLineRunHalts : Obligations.StraightLineRunHalts := by
  intro s hrun hip hsize hline
  have hreach := core_run_atWord hsize hline ⟨rfl, hrun, by rw [hip]; rfl⟩
  refine ⟨fun n hn => ?_, ?_⟩
  · obtain ⟨u, hu, _, hrun', hip'⟩ := hreach n hn
    exact ⟨u, hu, hrun', hip'⟩
  · obtain ⟨u, hu, himem, hrun', hip'⟩ := hreach s.imem.length le_rfl
    have hhalt := step_of_imemSize_le hrun' (by rw [State.imemSize, himem, hip'])
    exact ⟨u.endRun .halted, by rw [core_run_add_next 1 _ s u hu, core_run_succ_next 0 hhalt, core_run_zero], rfl, hip'⟩

end Sys2Proof.Machine
